-- ==== Sys2Proof/Word.lean ====
section
/-!
DEFINITION. The words of the block. Every quantity is unsigned (spec 00_scope.md R8): a byte of the command
stream, a stored segment pattern (`PAT_W` = 8), a pin identifier (`PIN_W` = 8), a 7-bit glyph of the Decoder ROM.
-/
namespace Sys2Proof

/-- One byte: a command-stream byte or a segment pattern, bit k = segment k (R7). -/
abbrev Byte := BitVec 8

/-- A pin identifier: an opaque 8-bit name the block repeats and never computes on (R36). -/
abbrev Pin := BitVec 8

/-- A glyph of the Decoder ROM: a 7-bit segment-illumination pattern (R68). -/
abbrev Glyph := BitVec 7

end Sys2Proof
end

