-- ==== Sys2Proof/Config.lean ====
section
/-!
DEFINITION. The parameters of the block (spec 00_scope.md R6): what is fixed before reset and never changes.
"Param" rows of R6 are fields of `Config`; "Fixed" rows are constants. The default values of the fields stand in
Machine/Defaults.lean.
-/
namespace Sys2Proof

/-- `CFG_GROUP_ORDER` (R6, R73): which pin group CONFIG configures first. -/
inductive GroupOrder where
  | digitsFirst
  | segmentsFirst
  deriving DecidableEq, Repr

/-- The parameters of R6, a plain record that State carries unchanged (log entry 1, DESIGN CHOICE). -/
structure Config where
  /-- `NUM_DIGITS`: number of digit positions, 1..255. -/
  numDigits : Nat
  /-- `DWELL_W` / 8: the dwell operand is a whole number of bytes, at least one. -/
  dwellBytes : Nat
  /-- `DEC_ROM[0..9]`: the ten digit glyphs, each 0..127 by its type. -/
  digitGlyphs : Vector Glyph 10
  /-- `CFG_GROUP_ORDER`. -/
  groupOrder : GroupOrder
  /-- `CFG_EXTRAS_CONFIGURED`: does CONFIG emit `CfgOut` for pins beyond capacity. -/
  extrasConfigured : Bool
  deriving DecidableEq, Repr

/-- `MAX_SEG`: number of segment slots (R6, fixed). -/
abbrev maxSeg : Nat := 8

/-- `DWELL_W`: the width of the dwell operand in bits (R6). -/
def Config.dwellW (c : Config) : Nat := 8 * c.dwellBytes

/-- The ranges of R6: 1 <= `NUM_DIGITS` <= 255 and `DWELL_W` >= 8. -/
abbrev Config.Legal (c : Config) : Prop := 1 ≤ c.numDigits ∧ c.numDigits ≤ 255 ∧ 1 ≤ c.dwellBytes

end Sys2Proof
end

