-- ==== Sys2Proof/Machine/Defaults.lean ====
section
/-!
DEFINITION. The default values of the parameters (spec 00_scope.md R6) and the values the model gives at reset to the
fields R32 leaves unspecified.
-/
namespace Sys2Proof.Machine

/-- The default of `DEC_ROM[0..9]` (R66), supplied by the spec from general knowledge (R70, U1).
PRESUMED, unsafe: log entry 2. Digits 6, 7 and 9 differ between fonts. -/
def defaultGlyphs : Vector Glyph 10 :=
  #v[0x3F#7, 0x06#7, 0x5B#7, 0x4F#7, 0x66#7, 0x6D#7, 0x7D#7, 0x07#7, 0x7F#7, 0x6F#7]

/-- The default parameters of R6. -/
def defaultConfig : Config where
  numDigits := 4
  dwellBytes := 4
  digitGlyphs := defaultGlyphs
  groupOrder := .digitsFirst
  extrasConfigured := false

/-- What `DS[j]`, `DPIN[j]` and `SPIN[i]` hold after reset; R32 leaves them unspecified.
DESIGN CHOICE, unsafe: log entry 3. -/
def resetByte : Byte := 0x00#8

/-- What `dw` holds after reset; R32 leaves it unspecified. DESIGN CHOICE, unsafe: log entry 3. -/
def resetDwell : Nat := 0

end Sys2Proof.Machine
end

