-- ==== Sys2Proof/Syntax.lean ====
section
/-!
DEFINITION. The four commands in abstract form (spec 30_encoding.md R52 to R55), one constructor per row of
spec/opcode_table.json. Lists and values outside the nominal ranges are commands too: they are clamped or make the
command a no-op (R52 to R54), so nothing is shut out here.
-/
namespace Sys2Proof

/-- A command of the host. -/
inductive Instr where
  /-- CONFIG(dpins, spins): digit pins, then segment pins (R52). -/
  | config (dpins spins : List Pin)
  /-- SETD(position, symbol): two unsigned 8-bit values (R53). -/
  | setd (position symbol : Byte)
  /-- SETDS(symbols): unsigned 8-bit symbol codes (R54). -/
  | setds (symbols : List Byte)
  /-- REFRESH(dwell): an unsigned `DWELL_W`-bit value, never computed on (R55). -/
  | refresh (dwell : Nat)
  deriving DecidableEq, Repr

end Sys2Proof
end

