-- ==== Sys2Proof/WellFormed.lean ====
section
/-!
DEFINITION. Which abstract commands exist (spec 30_encoding.md R52 to R55): list lengths 0..255, a dwell of
`DWELL_W` bits. SETD has no condition: every pair of bytes is a command (R53).
-/
namespace Sys2Proof

/-- The command is one of R52 to R55 for the parameters `c`. -/
def Instr.wf (c : Config) : Instr → Bool
  | .config dpins spins => decide (dpins.length ≤ 255) && decide (spins.length ≤ 255)
  | .setd _ _ => true
  | .setds symbols => decide (symbols.length ≤ 255)
  | .refresh dwell => decide (dwell < 2 ^ c.dwellW)

end Sys2Proof
end

