-- ==== Sys2Proof/Decode.lean ====
section
/-!
DEFINITION. The byte transport (spec 30_encoding.md R60 to R65): the decoder, total on every byte list, then the encoder
from the same format table, then the assembler's pseudo-instructions (R59).
-/
namespace Sys2Proof

/-- The four formats of R60, named after their commands. -/
inductive Format where
  | cfg
  | sd
  | sds
  | rf
  deriving DecidableEq, Repr

/-- The opcode byte of a format (R60, R61). -/
def opcodeByte : Format → Byte
  | .cfg => 0x01#8
  | .sd => 0x02#8
  | .sds => 0x03#8
  | .rf => 0x04#8

/-- The opcode map (R61): all eight bits of byte 0 compared; every other byte is reserved (R64). -/
def formatOf (b : Byte) : Option Format :=
  if b = opcodeByte .cfg then some .cfg
  else if b = opcodeByte .sd then some .sd
  else if b = opcodeByte .sds then some .sds
  else if b = opcodeByte .rf then some .rf
  else none

/-- What the decoder makes of a byte list (R63). -/
inductive Decoded where
  /-- A complete command and the bytes after it. -/
  | command (i : Instr) (rest : List Byte)
  /-- Byte 0 spells no command (R64). -/
  | reserved (b : Byte)
  /-- The list ends before the last operand byte (R65), or is empty. -/
  | incomplete
  deriving DecidableEq, Repr

/-- The first `n` bytes and the bytes after them, if `n` bytes have arrived (R65). -/
def takeBytes (n : Nat) (bs : List Byte) : Option (List Byte × List Byte) :=
  if n ≤ bs.length then some (bs.take n, bs.drop n) else none

/-- A multi-byte operand read least significant byte first (R39, R62). -/
def leNat : List Byte → Nat
  | [] => 0
  | b :: bs => b.toNat + 256 * leNat bs

/-- `n` bytes of a value, least significant byte first (R39). -/
def leBytes : Nat → Nat → List Byte
  | 0, _ => []
  | n + 1, v => BitVec.ofNat 8 v :: leBytes n (v / 256)

/-- Operands of format CFG: nd, ns, then nd digit-pin bytes, then ns segment-pin bytes (R60, R62). -/
def decodeCfg : List Byte → Decoded
  | nd :: ns :: bs =>
    match takeBytes nd.toNat bs with
    | none => .incomplete
    | some (dpins, bs') =>
      match takeBytes ns.toNat bs' with
      | none => .incomplete
      | some (spins, rest) => .command (.config dpins spins) rest
  | _ => .incomplete

/-- Operands of format SD: position, symbol (R60). -/
def decodeSd : List Byte → Decoded
  | position :: symbol :: rest => .command (.setd position symbol) rest
  | _ => .incomplete

/-- Operands of format SDS: n, then n symbol bytes (R60). -/
def decodeSds : List Byte → Decoded
  | n :: bs =>
    match takeBytes n.toNat bs with
    | none => .incomplete
    | some (symbols, rest) => .command (.setds symbols) rest
  | [] => .incomplete

/-- Operands of format RF: `DWELL_W` / 8 dwell bytes (R60, R62). -/
def decodeRf (c : Config) (bs : List Byte) : Decoded :=
  match takeBytes c.dwellBytes bs with
  | none => .incomplete
  | some (dwell, rest) => .command (.refresh (leNat dwell)) rest

/-- The command decoder (R63): length from byte 0 and the count bytes; the lists are delivered whole, clamping is not
part of decoding (R62). -/
def decode (c : Config) : List Byte → Decoded
  | [] => .incomplete
  | b :: bs =>
    match formatOf b with
    | none => .reserved b
    | some .cfg => decodeCfg bs
    | some .sd => decodeSd bs
    | some .sds => decodeSds bs
    | some .rf => decodeRf c bs

/-- The format of a command (R60). -/
def formatOfInstr : Instr → Format
  | .config _ _ => .cfg
  | .setd _ _ => .sd
  | .setds _ => .sds
  | .refresh _ => .rf

/-- The operand bytes of a command in stream order (R60, R62). -/
def operandBytes (c : Config) : Instr → List Byte
  | .config dpins spins => BitVec.ofNat 8 dpins.length :: BitVec.ofNat 8 spins.length :: (dpins ++ spins)
  | .setd position symbol => [position, symbol]
  | .setds symbols => BitVec.ofNat 8 symbols.length :: symbols
  | .refresh dwell => leBytes c.dwellBytes dwell

/-- The encoder: opcode byte, then operand bytes (R60). -/
def encode (c : Config) (i : Instr) : List Byte := opcodeByte (formatOfInstr i) :: operandBytes c i

/-- The length in bytes of a command (R60, R63). -/
def commandLength (c : Config) : Instr → Nat
  | .config dpins spins => 3 + dpins.length + spins.length
  | .setd _ _ => 3
  | .setds symbols => 2 + symbols.length
  | .refresh _ => 1 + c.dwellBytes

/-- The `n` lowest bytes of `w`, the first byte in stream order being bits 7..0. -/
def tableWordBytes (n w : Nat) : List Byte := leBytes n w

/-- How many bytes the command that starts `bs` has (R63), a count byte that is not there read as 0. -/
def neededLength (c : Config) (bs : List Byte) : Nat :=
  match formatOf (bs.getD 0 0) with
  | none => 1
  | some .cfg => 3 + (bs.getD 1 0).toNat + (bs.getD 2 0).toNat
  | some .sd => 3
  | some .sds => 2 + (bs.getD 1 0).toNat
  | some .rf => 1 + c.dwellBytes

/-- The bytes of an instruction given by its first `nbits` bits as spec/opcode_table.json numbers them, every later byte
of the instruction being 0. -/
def tableBytes (c : Config) (nbits w : Nat) : List Byte :=
  let bs := tableWordBytes ((nbits + 7) / 8) w
  bs ++ List.replicate (neededLength c bs - bs.length) 0x00#8

/-- The instruction the decoder reads from the table's bits, with the default parameters. -/
def decodeTableWord (nbits w : Nat) : Option Instr :=
  match decode Machine.defaultConfig (tableBytes Machine.defaultConfig nbits w) with
  | .command i _ => some i
  | .reserved _ => none
  | .incomplete => none

/-- The symbol code `EMPTY` (R6, R56). -/
def symEmpty : Byte := 16#8

/-- The symbol code `DASH` (R6, R56). -/
def symDash : Byte := 17#8

/-- The pseudo-instructions of R59. -/
inductive Pseudo where
  /-- `refresh()`: REFRESH with no operand. -/
  | refreshDefault
  /-- `CLEAR j`. -/
  | clear (position : Byte)
  /-- `SETDS [y0, ..., y(n-1)]` read as `SETD 0, y0 ; ... ; SETD n-1, y(n-1)`. -/
  | eachDigit (symbols : List Byte)
  deriving DecidableEq, Repr

/-- `SETD k, y0 ; SETD k+1, y1 ; ...` (R59). -/
def setdEach (k : Nat) : List Byte → List Instr
  | [] => []
  | y :: ys => .setd (BitVec.ofNat 8 k) y :: setdEach (k + 1) ys

/-- The expansions of R59. -/
def expandPseudo : Pseudo → List Instr
  | .refreshDefault => [.refresh 0]
  | .clear position => [.setd position symEmpty]
  | .eachDigit symbols => setdEach 0 symbols

end Sys2Proof
end

