-- ==== Sys2Proof/Machine/Rom.lean ====
section
/-!
DEFINITION. The Decoder ROM and DECODE (spec 40_decoder_table.md R66 to R70): a constant of the block, not state (R30).
-/
namespace Sys2Proof.Machine

/-- A symbol code, 0..17 (R56): the domain of DECODE, as a type (R67). -/
abbrev Symbol := Fin 18

/-- `RomRead(s)` = `DEC_ROM[s]` (R34, R66): 0..9 the parameter, zero-extended to a byte (D12); 10..16 blank; 17 segment g. -/
def romRead (c : Config) (s : Symbol) : Byte :=
  if h : s.val < 10 then (c.digitGlyphs[s.val]).setWidth 8
  else if s.val = 17 then 0x40#8
  else 0x00#8

/-- DECODE (R67): pure, total over its domain. -/
def decodeSymbol (c : Config) (s : Symbol) : Byte := romRead c s

/-- `EMPTY` as a symbol code (R56). -/
def emptySymbol : Symbol := 16

/-- `DASH` as a symbol code (R56). -/
def dashSymbol : Symbol := 17

end Sys2Proof.Machine
end

