-- ==== Sys2Proof/Machine/State.lean ====
section
/-!
DEFINITION. The state of the block (spec 10_state.md R15 to R32): its registers, its three ports, its parameters, as
plain data; the reasons a step can stop; the reset state (R32).
-/
namespace Sys2Proof.Machine

/-- A line level (R11): `HIGH` or `LOW`. -/
inductive Level where
  | low
  | high
  deriving DecidableEq, Repr

/-- An event to a collaborator (R10). -/
inductive Event where
  /-- `CfgOut(p)`: make line p an output (R107). -/
  | cfgOut (p : Pin)
  /-- `SetOut(p, l)`: drive line p to level l (R108). -/
  | setOut (p : Pin) (l : Level)
  /-- `Wait(n)`: busy-wait n microseconds (R109). -/
  | wait (n : Nat)
  deriving DecidableEq, Repr

/-- A slot of the Pin Assignment (R23, R24, R25, R58): `DV[j]`/`SV[i]` and `DPIN[j]`/`SPIN[i]`. The pin byte of a slot
whose valid bit is 0 is unspecified and never read. -/
structure Slot where
  valid : Bool
  pin : Pin
  deriving DecidableEq, Repr

/-- The sequencer state (R21); i is a segment slot index, j a digit index, k a count. -/
inductive Seq where
  /-- `IDLE`: ready to accept a command. -/
  | idle
  /-- `CFG(k)`: k events of the running CONFIG are out; `pins` are the pins of its event list E (R73). -/
  | cfg (k : Nat) (pins : List Pin)
  /-- `SEG_ON(i)`: about to assert segment line i. -/
  | segOn (i : Nat)
  /-- `DRIVE(i, j)`: about to drive digit line j for segment i. -/
  | drive (i j : Nat)
  /-- `WAIT(i)`: about to dwell in the window of segment i. -/
  | wait (i : Nat)
  /-- `OFF(i, j)`: about to disable digit line j after the dwell. -/
  | off (i j : Nat)
  /-- `SEG_OFF(i)`: about to deassert segment line i. -/
  | segOff (i : Nat)
  deriving DecidableEq, Repr

/-- The whole state. Registers of R15: `ds`, `digitSlots` (`DV`, `DPIN`), `segSlots` (`SV`, `SPIN`), `constructed`, `seq`
(with the list E of R73), `dw`. Ports (D2): `cmd`, `trace`, `resetReq`. Parameters (R6): `cfg`, which no step changes. -/
structure State where
  /-- The parameters of R6 (log entry 1). -/
  cfg : Config
  /-- The Display State `DS[0..NUM_DIGITS-1]` (R16). -/
  ds : List Byte
  /-- The digit-select slots `DV[j]`, `DPIN[j]` (R23). -/
  digitSlots : List Slot
  /-- The segment slots `SV[i]`, `SPIN[i]`, i in 0..7 (R25). -/
  segSlots : List Slot
  /-- The flag `constructed` (R29). -/
  constructed : Bool
  /-- The sequencer state `seq` (R21). -/
  seq : Seq
  /-- The dwell latch `dw` (R27). -/
  dw : Nat
  /-- The command port: the bytes sent and not yet consumed (R37; log entry 6). -/
  cmd : List Byte
  /-- The event port: the trace T, oldest event first (R10; log entry 8). -/
  trace : List Event
  /-- The reset input as the host drives it (R111; log entry 9). -/
  resetReq : Bool
  deriving DecidableEq, Repr

/-- Stops of the MODEL, none of them reachable from a state that meets `Inv` (D28). -/
inductive Fault where
  /-- The pin byte of an unassigned slot is read (R24, R32, U8: a fault of the model). Raised by `withPin`. Safe. -/
  | unassignedSlot
  /-- A slot index outside the slot array (R23, R25). Raised by `withPin`. Safe. -/
  | noSlot
  /-- A Display State entry or pattern bit that does not exist (R35, R47). Raised by `seqDrive`. Safe. -/
  | noDisplayBit
  /-- `CFG(k)` with k not below the length of E (R73). Raised by `seqCfg`. Safe. -/
  | noConfigEvent
  deriving DecidableEq, Repr

/-- The outcome *refuse* of R99: the spec gives the case no meaning. -/
inductive Refusal where
  /-- An arm of `exec` with no meaning yet. Raised by no arm of this model. Safe. -/
  | notModelled (mnemonic : String)
  /-- SETD, SETDS or REFRESH while `constructed` = 0 (R99 row 1). Raised by `whenConstructed`. Safe. -/
  | notConstructed
  /-- CONFIG while `constructed` = 1 (R75, R99 row 2). Raised by `whenNotConstructed`. Safe. -/
  | alreadyConstructed
  /-- An opcode byte that spells no command (R64, R99 row 3). Raised by `acceptCommand`. Safe. -/
  | reservedOpcode (b : Byte)
  /-- Reset while `seq` is not `IDLE` (R124, R99 row 4). Raised by `takeReset`. Safe. -/
  | resetWhileBusy
  deriving DecidableEq, Repr

/-- What a step or a meaning answers. -/
abbrev Out := Host.Outcome State Fault Refusal

/-- The reset state of R32 for the parameters `c`: no instance, `IDLE`, every valid bit 0, trace empty; the unspecified
fields hold the values of Defaults.lean (DESIGN CHOICE, log entry 3). -/
def State.resetWith (c : Config) : State where
  cfg := c
  ds := List.replicate c.numDigits resetByte
  digitSlots := List.replicate c.numDigits ⟨false, resetByte⟩
  segSlots := List.replicate maxSeg ⟨false, resetByte⟩
  constructed := false
  seq := .idle
  dw := resetDwell
  cmd := []
  trace := []
  resetReq := false

/-- The machine right after reset, with the default parameters (R32, R6). -/
def State.reset : State := State.resetWith defaultConfig

end Sys2Proof.Machine
end

