-- ==== Sys2Proof/Machine/Ops.lean ====
section
/-!
DEFINITION. The named operations over the state: emitting an event (spec R9, R10), moving the sequencer, reading and
filling slots, reading and writing the Display State, the host's two inputs, and the reset (R111, R124). The block has no
exception, trap or return from one (R95, R102, R103), so none stands here; the outcome *refuse* of R99 is raised in
Flags.lean and Fetch.lean.
-/
namespace Sys2Proof.Machine

/-- `emit e` (R9): append to the trace. -/
def emit (e : Event) (s : State) : State := { s with trace := s.trace ++ [e] }

/-- `seq <- q` (R9). -/
def goto (q : Seq) (s : State) : State := { s with seq := q }

/-- `dw <- n` (R27). -/
def latchDwell (n : Nat) (s : State) : State := { s with dw := n }

/-- The bytes left on the command port (R37: consumed in order, each once). -/
def withCmd (bs : List Byte) (s : State) : State := { s with cmd := bs }

/-- `DS[j] <- v`, one whole byte (R35); nothing where there is no entry j. -/
def writeDs (j : Nat) (v : Byte) (s : State) : State := { s with ds := s.ds.set j v }

/-- `DS[j][i]` (R47): bit i, 0..7, of entry j; `none` where it does not exist (R35). -/
def readDsBit (s : State) (j i : Nat) : Option Bool :=
  if i < 8 then s.ds[j]?.map (fun b => b.getLsbD i) else none

/-- Is slot k assigned (`DV[k]` or `SV[k]` = 1; R23, R25)? -/
def isAssigned (slots : List Slot) (k : Nat) : Bool := (slots[k]?).any (fun sl => sl.valid)

/-- Read the pin byte of slot k and go on with it. R24 and R32: the byte of an unassigned slot is unspecified, reading it
is a fault of the model. -/
def withPin (slots : List Slot) (k : Nat) (f : Pin → Out) : Out :=
  match slots[k]? with
  | none => .fault .noSlot
  | some sl => if sl.valid then f sl.pin else .fault .unassignedSlot

/-- The first assigned slot of a list whose head has index `n`. -/
def firstAssigned : List Slot → Nat → Option Nat
  | [], _ => none
  | sl :: sls, n => if sl.valid then some n else firstAssigned sls (n + 1)

/-- `nextSeg(k)` and `nextDig(k)` (R85): the least assigned slot at or above k, or `NONE`. -/
def nextAssigned (slots : List Slot) (k : Nat) : Option Nat := firstAssigned (slots.drop k) k

/-- CONFIG's loops over one slot array (R71, R72): the pins go into slots 0 upward; every further slot becomes unassigned,
its pin byte unspecified (kept here, log entry 4). -/
def fillSlots : List Slot → List Pin → List Slot
  | [], _ => []
  | sl :: sls, [] => { sl with valid := false } :: fillSlots sls []
  | _ :: sls, p :: ps => ⟨true, p⟩ :: fillSlots sls ps

/-- The assigned slots with their pins, ascending, the head having index `n` (`Aseg`, `Adig` of R83). -/
def assignedFrom : Nat → List Slot → List (Nat × Pin)
  | _, [] => []
  | n, sl :: sls => if sl.valid then (n, sl.pin) :: assignedFrom (n + 1) sls else assignedFrom (n + 1) sls

/-- `Aseg` or `Adig` (R83) with the pin of each slot. -/
def assignedSlots (slots : List Slot) : List (Nat × Pin) := assignedFrom 0 slots

/-- `ndig` or `nseg` (R26): the number of assigned slots. -/
def assignedCount (slots : List Slot) : Nat := (assignedSlots slots).length

/-- The host sends bytes on the command port, at any time (R37, D2). -/
def hostSend (bs : List Byte) (s : State) : State := { s with cmd := s.cmd ++ bs }

/-- The host asserts the reset input (R111). -/
def hostReset (s : State) : State := { s with resetReq := true }

/-- The reset input is taken (R111, R124): in `IDLE` a new run starts in the reset state of R32, the stream being the
host's (R31); while a command runs the case has no meaning and is refused (R99). -/
def takeReset (s : State) : Out :=
  match s.seq with
  | .idle => .next (withCmd s.cmd (State.resetWith s.cfg))
  | _ => .refused .resetWhileBusy

end Sys2Proof.Machine
end

