-- ==== Sys2Proof/Machine/Flags.lean ====
section
/-!
DEFINITION. The one flag of the block, `constructed` (spec 10_state.md R29), and the two preconditions on it (R99). No
command computes any other flag or status (R29, R95).
-/
namespace Sys2Proof.Machine

/-- The precondition of SETD, SETDS and REFRESH: `constructed` = 1, else refused (R99 row 1). -/
def whenConstructed (s : State) (k : Out) : Out :=
  if s.constructed then k else .refused .notConstructed

/-- The precondition of CONFIG: `constructed` = 0, else refused (R75, R99 row 2). -/
def whenNotConstructed (s : State) (k : Out) : Out :=
  if s.constructed then .refused .alreadyConstructed else k

end Sys2Proof.Machine
end

