-- ==== Sys2Proof/Machine/Operands.lean ====
section
/-!
DEFINITION. The operand forms: the two range tests of SETD (spec R47, R78), the clamped counts of CONFIG (R72) and its
event list E (R73), the level a pattern bit drives (R11, R87).
-/
namespace Sys2Proof.Machine

/-- `position < NUM_DIGITS`, unsigned (R47). -/
def positionInRange (c : Config) (position : Nat) : Bool := decide (position < c.numDigits)

/-- `symbol <= 17`, unsigned, as the symbol code it then is (R47, R67); `none` for 18..255. -/
def symbolOperand (b : Byte) : Option Symbol :=
  if h : b.toNat < 18 then some ⟨b.toNat, h⟩ else none

/-- cd = min(nd, `NUM_DIGITS`) (R71, R72). -/
def digitCount (c : Config) (dpins : List Pin) : Nat := min dpins.length c.numDigits

/-- cs = min(ns, 8) (R71, R72). -/
def segCount (spins : List Pin) : Nat := min spins.length maxSeg

/-- The pins of one group that get a `CfgOut`: the stored ones, then, if `CFG_EXTRAS_CONFIGURED`, the dropped ones in
supplied order (R72). -/
def groupPins (c : Config) (stored : Nat) (pins : List Pin) : List Pin :=
  pins.take stored ++ (if c.extrasConfigured then pins.drop stored else [])

/-- The pins of CONFIG's event list E, in order (R73): the two groups in the order of `CFG_GROUP_ORDER`. -/
def configPins (c : Config) (dpins spins : List Pin) : List Pin :=
  let digits := groupPins c (digitCount c dpins) dpins
  let segments := groupPins c (segCount spins) spins
  match c.groupOrder with
  | .digitsFirst => digits ++ segments
  | .segmentsFirst => segments ++ digits

/-- The level a digit line gets in `DRIVE` (R87): `LOW` if the pattern bit is 1, else `HIGH`. -/
def driveLevel (bit : Bool) : Level := if bit then .low else .high

/-- A level written as a bit (R11): `HIGH` = 1, `LOW` = 0. -/
def levelBit : Level → BitVec 1
  | .low => 0#1
  | .high => 1#1

end Sys2Proof.Machine
end

