-- ==== Sys2Proof/Machine/Construction.lean ====
section
/-!
DEFINITION. CONFIG (spec 41_construction.md R71 to R76): the accept step with every register write, the sequencer step of
`CFG(k)`, and the command as one step.
-/
namespace Sys2Proof.Machine

/-- The register writes of CONFIG (R71): `constructed`, both slot arrays, every `DS[j]` with DECODE(16) (R74). -/
def construct (dpins spins : List Pin) (s : State) : State :=
  { s with
    constructed := true
    digitSlots := fillSlots s.digitSlots (dpins.take (digitCount s.cfg dpins))
    segSlots := fillSlots s.segSlots (spins.take (segCount spins))
    ds := List.replicate s.cfg.numDigits (decodeSymbol s.cfg emptySymbol) }

/-- Where the sequencer stands with `k` events of E out (R73): `CFG(k)`, or `IDLE` when all are. -/
def configSeq (k : Nat) (pins : List Pin) : Seq := if k < pins.length then .cfg k pins else .idle

/-- CONFIG (R71), its accept step (R73). -/
def execConfig (dpins spins : List Pin) (s : State) : Out :=
  whenNotConstructed s
    (.next (goto (configSeq 0 (configPins s.cfg dpins spins)) (construct dpins spins s)))

/-- The step of `CFG(k)` (R73): emit `E[k]`. -/
def seqCfg (k : Nat) (pins : List Pin) (s : State) : Out :=
  match pins[k]? with
  | none => .fault .noConfigEvent
  | some p => .next (goto (configSeq (k + 1) pins) (emit (.cfgOut p) s))

/-- CONFIG as one step (R71): the register writes and the whole list E. -/
def configResult (dpins spins : List Pin) (s : State) : State :=
  { construct dpins spins s with
    trace := s.trace ++ (configPins s.cfg dpins spins).map Event.cfgOut
    seq := .idle }

end Sys2Proof.Machine
end

