-- ==== Sys2Proof/Machine/Mutation.lean ====
section
/-!
DEFINITION. SETD and SETDS (spec 42_state_mutation.md R77 to R81). Neither emits an event; both complete in one step and
leave `seq` as it is, which is `IDLE` whenever a command is accepted (R21, R77).
-/
namespace Sys2Proof.Machine

/-- The body of SETD (R77, R78): both range tests pass, or nothing happens. -/
def setDigit (position : Nat) (symbol : Byte) (s : State) : State :=
  if positionInRange s.cfg position then
    match symbolOperand symbol with
    | some sym => writeDs position (decodeSymbol s.cfg sym) s
    | none => s
  else s

/-- The loop of SETDS (R79): SETD(k, y) for each symbol in order, each with its own tests. -/
def setDigitsFrom : Nat → List Byte → State → State
  | _, [], s => s
  | k, y :: ys, s => setDigitsFrom (k + 1) ys (setDigit k y s)

/-- SETD (R77). -/
def execSetd (position symbol : Byte) (s : State) : Out :=
  whenConstructed s (.next (setDigit position.toNat symbol s))

/-- SETDS (R79). -/
def execSetds (symbols : List Byte) (s : State) : Out :=
  whenConstructed s (.next (setDigitsFrom 0 symbols s))

end Sys2Proof.Machine
end

