-- ==== Sys2Proof/Machine/Refresh.lean ====
section
/-!
DEFINITION. REFRESH (spec 43_refresh.md): the accept step (R85), the sequencer's steps, one event each (R86 to R90), and the
command as one step, its trace a function of the registers (R82, R83).
-/
namespace Sys2Proof.Machine

/-- `SEG_ON(nextSeg(i))`, or `IDLE` when there is none (R85, R90). -/
def segSeq (s : State) (i : Nat) : Seq :=
  match nextAssigned s.segSlots i with
  | none => .idle
  | some i' => .segOn i'

/-- `DRIVE(i, nextDig(j))`, or `WAIT(i)` when there is none (R86, R87). -/
def driveSeq (s : State) (i j : Nat) : Seq :=
  match nextAssigned s.digitSlots j with
  | none => .wait i
  | some j' => .drive i j'

/-- `OFF(i, nextDig(j))`, or `SEG_OFF(i)` when there is none (R88, R89). -/
def offSeq (s : State) (i j : Nat) : Seq :=
  match nextAssigned s.digitSlots j with
  | none => .segOff i
  | some j' => .off i j'

/-- REFRESH, its accept step (R85): latch the dwell, go to the first window; no event. -/
def execRefresh (dwell : Nat) (s : State) : Out :=
  whenConstructed s (.next (goto (segSeq s 0) (latchDwell dwell s)))

/-- `SEG_ON(i)` (R86). -/
def seqSegOn (i : Nat) (s : State) : Out :=
  withPin s.segSlots i fun p => .next (goto (driveSeq s i 0) (emit (.setOut p .high) s))

/-- `DRIVE(i, j)` (R87): the only step that reads `DS`, one bit of it. -/
def seqDrive (i j : Nat) (s : State) : Out :=
  withPin s.digitSlots j fun p =>
    match readDsBit s j i with
    | none => .fault .noDisplayBit
    | some bit => .next (goto (driveSeq s i (j + 1)) (emit (.setOut p (driveLevel bit)) s))

/-- `WAIT(i)` (R88): `Wait(dw)`, also when `dw` = 0. -/
def seqWait (i : Nat) (s : State) : Out :=
  .next (goto (offSeq s i 0) (emit (.wait s.dw) s))

/-- `OFF(i, j)` (R89). -/
def seqOff (i j : Nat) (s : State) : Out :=
  withPin s.digitSlots j fun p => .next (goto (offSeq s i (j + 1)) (emit (.setOut p .high) s))

/-- `SEG_OFF(i)` (R90). -/
def seqSegOff (i : Nat) (s : State) : Out :=
  withPin s.segSlots i fun p => .next (goto (segSeq s (i + 1)) (emit (.setOut p .low) s))

/-- `lvl(i, j)` (R83): `LOW` if `DS[j][i]` = 1, else `HIGH`. -/
def lvl (s : State) (i j : Nat) : Level := driveLevel ((readDsBit s j i).getD false)

/-- The `DRIVE` events of window i (R83). -/
def driveEvents (s : State) (i : Nat) : List Event :=
  (assignedSlots s.digitSlots).map fun d => .setOut d.2 (lvl s i d.1)

/-- The `OFF` events of a window (R83). -/
def offEvents (s : State) : List Event :=
  (assignedSlots s.digitSlots).map fun d => .setOut d.2 .high

/-- The window `W(i)` of segment i, whose pin is `p` (R83). -/
def window (s : State) (dwell i : Nat) (p : Pin) : List Event :=
  .setOut p .high :: (driveEvents s i ++ .wait dwell :: (offEvents s ++ [.setOut p .low]))

/-- The trace of one REFRESH (R82, R83): `W(i)` for each assigned segment slot, ascending. -/
def refreshTrace (s : State) (dwell : Nat) : List Event :=
  (assignedSlots s.segSlots).flatMap fun g => window s dwell g.1 g.2

/-- REFRESH as one step (R82). -/
def refreshResult (dwell : Nat) (s : State) : State :=
  { s with dw := dwell, trace := s.trace ++ refreshTrace s dwell, seq := .idle }

end Sys2Proof.Machine
end

