-- ==== Sys2Proof/Machine/Dispatch.lean ====
section
/-! DEFINITION. One arm per command: the direct call of its meaning. -/
namespace Sys2Proof.Machine

def exec (i : Instr) (s : State) : Host.Outcome State Fault Refusal :=
  match i with
  | .config dpins spins => Sys2Proof.Machine.execConfig dpins spins s
  | .setd position symbol => Sys2Proof.Machine.execSetd position symbol s
  | .setds symbols => Sys2Proof.Machine.execSetds symbols s
  | .refresh dwell => Sys2Proof.Machine.execRefresh dwell s

end Sys2Proof.Machine
end

