-- ==== Sys2Proof/Machine/Fetch.lean ====
section
/-!
DEFINITION. What one step does around a command's meaning: take the reset input (spec R111, R124), accept the next command
in `IDLE` (R22, R37, R48), or run the sequencer step of the `seq` value (R91), and how a command is placed at the head of
the stream.
-/
namespace Sys2Proof.Machine

/-- `IDLE`: decode the stream. A complete command is consumed and executed; a reserved opcode is refused (R64, R99); an
incomplete or absent command changes nothing, the block waits (R65, R110; log entry 7). -/
def acceptCommand (ex : Instr → State → Out) (s : State) : Out :=
  match decode s.cfg s.cmd with
  | .command i rest => ex i (withCmd rest s)
  | .reserved b => .refused (.reservedOpcode b)
  | .incomplete => .next s

/-- The one step enabled in the present `seq` value (R22, R91). -/
def sequencerStep (ex : Instr → State → Out) (s : State) : Out :=
  match s.seq with
  | .idle => acceptCommand ex s
  | .cfg k pins => seqCfg k pins s
  | .segOn i => seqSegOn i s
  | .drive i j => seqDrive i j s
  | .wait i => seqWait i s
  | .off i j => seqOff i j s
  | .segOff i => seqSegOff i s

/-- One step with the commands' meanings `ex`: the reset input first, then the sequencer. -/
def stepWith (ex : Instr → State → Out) (s : State) : Out :=
  if s.resetReq then takeReset s else sequencerStep ex s

/-- Put a command's bytes where the very next step accepts them (log entry 21). -/
def placeCommand (bs : List Byte) (s : State) : State :=
  { s with cmd := bs ++ s.cmd, seq := .idle, resetReq := false }

end Sys2Proof.Machine
end

