-- ==== Sys2Proof/Machine/Step.lean ====
section
/-! DEFINITION. The step function of the machine, and the placing of an opcode-table word where it is fetched. -/
namespace Sys2Proof.Machine

/-- One step: a reset, an accept step, one event of the running command, or waiting. -/
def step (s : State) : Host.Outcome State Fault Refusal := stepWith exec s

/-- `s` with the instruction of the table word placed so that the very next step runs it. -/
def State.withFetchWord (s : State) (nbits w : Nat) : State := placeCommand (tableBytes s.cfg nbits w) s

end Sys2Proof.Machine
end

