-- ==== Sys2Proof/Machine/Asm.lean ====
section
/-!
DEFINITION. The assembly language (spec 30_encoding.md R59): one command per line, in the mnemonic form or in the source's
call form, lists in square brackets, numbers decimal, 0x or 0b, `EMPTY` and `DASH` where a symbol is expected. A tool of the
host: no step of the block uses it.
-/
namespace Sys2Proof

/-- The tokens of a line. -/
inductive Tok where
  | word (w : List Char)
  | num (n : Nat)
  | lbrack
  | rbrack
  | lpar
  | rpar
  | comma
  deriving DecidableEq, Repr

/-- One digit of a number, if it is one in the given base. -/
def digitValue (base : Nat) (ch : Char) : Option Nat :=
  let v :=
    if '0' ≤ ch ∧ ch ≤ '9' then ch.toNat - '0'.toNat
    else if 'a' ≤ ch ∧ ch ≤ 'f' then ch.toNat - 'a'.toNat + 10
    else if 'A' ≤ ch ∧ ch ≤ 'F' then ch.toNat - 'A'.toNat + 10
    else base
  if v < base then some v else none

/-- The digits of a number, most significant first; underscores are ignored (R7). -/
def digitsValue (base : Nat) (acc : Nat) : List Char → Option Nat
  | [] => some acc
  | '_' :: cs => digitsValue base acc cs
  | ch :: cs =>
    match digitValue base ch with
    | some d => digitsValue base (acc * base + d) cs
    | none => none

/-- A number: decimal, `0x` or `0b` (R59). -/
def numberValue : List Char → Option Nat
  | '0' :: 'x' :: ch :: cs => digitsValue 16 0 (ch :: cs)
  | '0' :: 'b' :: ch :: cs => digitsValue 2 0 (ch :: cs)
  | cs => digitsValue 10 0 cs

/-- The token of a finished run of characters (held in reverse), put before the tokens after it. -/
def flushToken (rev : List Char) (after : Option (List Tok)) : Option (List Tok) :=
  match rev.reverse with
  | [] => after
  | ch :: cs =>
    if '0' ≤ ch ∧ ch ≤ '9' then
      match numberValue (ch :: cs), after with
      | some n, some ts => some (.num n :: ts)
      | _, _ => none
    else after.map fun ts => .word (ch :: cs) :: ts

/-- The tokens of a line, `rev` being the run of characters read so far. -/
def tokensFrom (rev : List Char) : List Char → Option (List Tok)
  | [] => flushToken rev (some [])
  | ' ' :: cs => flushToken rev (tokensFrom [] cs)
  | '[' :: cs => flushToken rev ((tokensFrom [] cs).map (.lbrack :: ·))
  | ']' :: cs => flushToken rev ((tokensFrom [] cs).map (.rbrack :: ·))
  | '(' :: cs => flushToken rev ((tokensFrom [] cs).map (.lpar :: ·))
  | ')' :: cs => flushToken rev ((tokensFrom [] cs).map (.rpar :: ·))
  | ',' :: cs => flushToken rev ((tokensFrom [] cs).map (.comma :: ·))
  | ch :: cs => tokensFrom (ch :: rev) cs

/-- A byte operand: 0..255 (R53, R58). -/
def byteValue : Tok → Option Byte
  | .num n => if n < 256 then some (BitVec.ofNat 8 n) else none
  | _ => none

/-- A symbol operand: a byte, or one of the two names (R56, R59). -/
def symbolValue (t : Tok) : Option Byte :=
  if t = .word "EMPTY".toList then some symEmpty
  else if t = .word "DASH".toList then some symDash
  else byteValue t

/-- The further elements of a list, after one element: `, x , y ]`, and the tokens after the list. -/
def listTail (value : Tok → Option Byte) : List Tok → Option (List Byte × List Tok)
  | .rbrack :: ts => some ([], ts)
  | .comma :: t :: ts =>
    match value t, listTail value ts with
    | some b, some (bs, rest) => some (b :: bs, rest)
    | _, _ => none
  | _ => none

/-- A list in square brackets, and the tokens after it. -/
def listValue (value : Tok → Option Byte) : List Tok → Option (List Byte × List Tok)
  | .lbrack :: .rbrack :: ts => some ([], ts)
  | .lbrack :: t :: ts =>
    match value t, listTail value ts with
    | some b, some (bs, rest) => some (b :: bs, rest)
    | _, _ => none
  | _ => none

/-- The operands of CONFIG: two lists of pins, digit pins first. -/
def configOperands (ts : List Tok) : Option Instr :=
  match listValue byteValue ts with
  | some (dpins, .comma :: ts') =>
    match listValue byteValue ts' with
    | some (spins, []) => some (.config dpins spins)
    | _ => none
  | _ => none

/-- The operands of SETD. -/
def setdOperands : List Tok → Option Instr
  | [p, .comma, y] =>
    match byteValue p, symbolValue y with
    | some position, some symbol => some (.setd position symbol)
    | _, _ => none
  | _ => none

/-- The operand of SETDS. -/
def setdsOperands (ts : List Tok) : Option Instr :=
  match listValue symbolValue ts with
  | some (symbols, []) => some (.setds symbols)
  | _ => none

/-- The operand of REFRESH; with none it is `REFRESH 0` (R59). -/
def refreshOperands : List Tok → Option Instr
  | [] => some (.refresh 0)
  | [.num n] => some (.refresh n)
  | _ => none

/-- The operand of `CLEAR j` (R59). -/
def clearOperands : List Tok → Option Instr
  | [p] => (byteValue p).map fun position => .setd position symEmpty
  | _ => none

/-- The operands of a source call: what stands between its parentheses. -/
def callOperands (ts : List Tok) : Option (List Tok) :=
  match ts with
  | .lpar :: inner => if inner.getLast? = some .rpar then some inner.dropLast else none
  | _ => none

/-- The command of a line's tokens (R59): both syntaxes. -/
def assembleTokens : List Tok → Option Instr
  | .word w :: ts =>
    if w = "CONFIG".toList then configOperands ts
    else if w = "SETD".toList then setdOperands ts
    else if w = "SETDS".toList then setdsOperands ts
    else if w = "REFRESH".toList then refreshOperands ts
    else if w = "CLEAR".toList then clearOperands ts
    else if w = "new".toList then (callOperands ts).bind configOperands
    else if w = "set_digit".toList then (callOperands ts).bind setdOperands
    else if w = "set_digits".toList then (callOperands ts).bind setdsOperands
    else if w = "refresh".toList then (callOperands ts).bind refreshOperands
    else none
  | _ => none

/-- The command of a line, if the line is one and the command exists for the parameters `c` (R52 to R55, R59). -/
def assembleLine (c : Config) (text : List Char) : Option Instr :=
  ((tokensFrom [] text).bind assembleTokens).filter fun i => i.wf c

end Sys2Proof
end

