-- ==== Sys2Proof/Machine/Lines.lean ====
section
/-!
DEFINITION. The line view (spec 00_scope.md R12): the level of an external line, read off the trace. An observation, not
state of the block (R28); `none` is `UNKNOWN`, which is no level (log entry 18).
-/
namespace Sys2Proof.Machine

/-- What one event does to the line `p` (R107 to R109): only `SetOut(p, l)` changes it. -/
def lineAfter (p : Pin) (now : Option Level) : Event → Option Level
  | .cfgOut _ => now
  | .setOut q l => if q = p then some l else now
  | .wait _ => now

/-- The line view of a trace that begins with the line at `start`. -/
def lineFrom (start : Option Level) (t : List Event) (p : Pin) : Option Level := t.foldl (lineAfter p) start

/-- `Line(T, p)` (R12): the level of the last `SetOut(p, l)` in T, `none` (`UNKNOWN`) when there is none. -/
def line (t : List Event) (p : Pin) : Option Level := lineFrom none t p

end Sys2Proof.Machine
end

