-- ==== Sys2Proof/Machine/Whole.lean ====
section
/-!
DEFINITION. The commands as single steps, the source's own form (spec R71, R77, R79, R82), beside the small steps of `step`
(D27: where the two differ, this form governs; R91 says they agree).
-/
namespace Sys2Proof.Machine

/-- The precondition of a command on `constructed` (R99). -/
def accepts (i : Instr) (s : State) : Bool :=
  match i with
  | .config _ _ => !s.constructed
  | .setd _ _ => s.constructed
  | .setds _ => s.constructed
  | .refresh _ => s.constructed

/-- The whole effect of a command, its events included, as one step. -/
def commandResult (i : Instr) (s : State) : State :=
  match i with
  | .config dpins spins => configResult dpins spins s
  | .setd position symbol => setDigit position.toNat symbol s
  | .setds symbols => setDigitsFrom 0 symbols s
  | .refresh dwell => refreshResult dwell s

/-- The events a command emits (R71, R77, R79, R83). -/
def commandEvents (i : Instr) (s : State) : List Event :=
  match i with
  | .config dpins spins => (configPins s.cfg dpins spins).map Event.cfgOut
  | .setd _ _ => []
  | .setds _ => []
  | .refresh dwell => refreshTrace s dwell

/-- The symbol a command writes to position j, if it does (R78, R79). -/
def symbolWritten (c : Config) (j : Nat) : Instr → Option Symbol
  | .config _ _ => none
  | .setd position symbol => if position.toNat = j ∧ j < c.numDigits then symbolOperand symbol else none
  | .setds symbols => if j < c.numDigits then (symbols[j]?).bind symbolOperand else none
  | .refresh _ => none

/-- The symbol of the last command of a list that wrote position j (R81). -/
def lastSymbol (c : Config) (j : Nat) : List Instr → Option Symbol
  | [] => none
  | i :: is => (lastSymbol c j is).or (symbolWritten c j i)

end Sys2Proof.Machine
end

