-- ==== Sys2Proof/Safety.lean ====
section
/-!
DEFINITION. The terms the statements are written in: runs and their end (spec R123), the invariants of the block, the named
premise `PinsDistinct` (R115), the lamps (R93), and the renaming of pin identifiers (R36).
-/
namespace Sys2Proof.Machine

/-- `n` steps, stopping at the first fault or refusal. -/
def run : Nat → State → Out
  | 0, s => .next s
  | n + 1, s =>
    match step s with
    | .next t => run n t
    | .fault f => .fault f
    | .refused r => .refused r

/-- Commands executed one after the other by `exec` alone, stopping at the first that does not answer a next state. -/
def execAll : List Instr → State → Out
  | [], s => .next s
  | i :: is, s =>
    match exec i s with
    | .next t => execAll is t
    | .fault f => .fault f
    | .refused r => .refused r

/-- An outcome with its next state, if any, changed by `g`. -/
def mapNext (g : State → State) : Out → Out
  | .next s => .next (g s)
  | .fault f => .fault f
  | .refused r => .refused r

/-- The run has ended (R123): `IDLE`, no complete command left and no leftover bytes. -/
abbrev Ended (s : State) : Prop := s.seq = .idle ∧ s.cmd = []

/-- The assigned slots are exactly 0 .. n-1 for some n (R26). -/
def assignedFirst (slots : List Slot) : Bool := (slots.dropWhile (fun sl => sl.valid)).all (fun sl => !sl.valid)

/-- The indices of `seq` are in range and name assigned slots (R21, R22). -/
def seqLegal (s : State) : Bool :=
  match s.seq with
  | .idle => true
  | .cfg k pins => decide (k < pins.length)
  | .segOn i => isAssigned s.segSlots i
  | .drive i j => isAssigned s.segSlots i && isAssigned s.digitSlots j
  | .wait i => isAssigned s.segSlots i
  | .off i j => isAssigned s.segSlots i && isAssigned s.digitSlots j
  | .segOff i => isAssigned s.segSlots i

/-- The structural invariant of the block. -/
structure Inv (s : State) : Prop where
  /-- The parameters are in their ranges (R6). -/
  cfgLegal : s.cfg.Legal
  /-- `DS` has `NUM_DIGITS` entries (R16). -/
  dsLength : s.ds.length = s.cfg.numDigits
  /-- There are `NUM_DIGITS` digit slots (R23). -/
  digitLength : s.digitSlots.length = s.cfg.numDigits
  /-- There are 8 segment slots (R25). -/
  segLength : s.segSlots.length = maxSeg
  /-- The assigned digit slots come first (R26). -/
  digitsFirst : assignedFirst s.digitSlots = true
  /-- The assigned segment slots come first (R26). -/
  segsFirst : assignedFirst s.segSlots = true
  /-- `dw` has `DWELL_W` bits (R27). -/
  dwRange : s.dw < 2 ^ s.cfg.dwellW
  /-- `seq` names assigned slots (R22). -/
  seqOk : seqLegal s = true
  /-- Before CONFIG nothing runs, no slot is assigned and the trace is empty (R32, R99). -/
  beforeConfig : s.constructed = false →
    s.seq = .idle ∧ assignedSlots s.digitSlots = [] ∧ assignedSlots s.segSlots = [] ∧ s.trace = []

/-- From the first CONFIG on, every `DS[j]` is an entry of the ROM (R18). -/
def RomOnly (s : State) : Prop :=
  s.constructed = true → ∀ b ∈ s.ds, ∃ sym : Symbol, b = decodeSymbol s.cfg sym

/-- Is pin `p` the pin of a `CfgOut` the running CONFIG has still to emit (R73)? -/
def pendingConfig (s : State) (p : Pin) : Prop :=
  match s.seq with
  | .cfg k pins => p ∈ pins.drop k
  | _ => False

/-- Every stored pin has had its `CfgOut` or is about to, and every driven pin has had it (R108). -/
def DrivenConfigured (s : State) : Prop :=
  (∀ g ∈ assignedSlots s.segSlots ++ assignedSlots s.digitSlots, Event.cfgOut g.2 ∈ s.trace ∨ pendingConfig s g.2) ∧
  (∀ p l, Event.setOut p l ∈ s.trace → Event.cfgOut p ∈ s.trace)

/-- `PinsDistinct` (R115): two assigned slots of either kind have different pins. -/
abbrev PinsDistinct (s : State) : Prop :=
  ((assignedSlots s.segSlots ++ assignedSlots s.digitSlots).map Prod.snd).Nodup

/-- No segment line but that of slot `but` stands `HIGH`, and those below `low` stand `LOW` (R93). -/
def segsOff (s : State) (but : Option Nat) (low : Nat) : Prop :=
  ∀ g ∈ assignedSlots s.segSlots, some g.1 ≠ but →
    line s.trace g.2 ≠ some .high ∧ (g.1 < low → line s.trace g.2 = some .low)

/-- No digit line stands `LOW`. -/
def digitsNotLow (s : State) : Prop :=
  ∀ d ∈ assignedSlots s.digitSlots, line s.trace d.2 ≠ some .low

/-- The segment line of slot i, whose window is open, stands `HIGH` (R93). -/
def segHigh (s : State) (i : Nat) : Prop :=
  ∀ g ∈ assignedSlots s.segSlots, g.1 = i → line s.trace g.2 = some .high

/-- The levels of the lines at each point of the scan (R93, R94), as far as the block has driven them; in the `DRIVE` and `OFF`
phases as R82 gives them (log entry 22, DESIGN CHOICE). -/
def lineLevels (s : State) : Prop :=
  match s.seq with
  | .idle => segsOff s none 0 ∧ digitsNotLow s
  | .cfg _ _ => segsOff s none 0 ∧ digitsNotLow s
  | .segOn i => segsOff s none i ∧ digitsNotLow s
  | .drive i j => segHigh s i ∧ segsOff s (some i) i ∧
      ∀ d ∈ assignedSlots s.digitSlots,
        if d.1 < j then line s.trace d.2 = some (lvl s i d.1) else line s.trace d.2 ≠ some .low
  | .wait i => segHigh s i ∧ segsOff s (some i) i ∧
      ∀ d ∈ assignedSlots s.digitSlots, line s.trace d.2 = some (lvl s i d.1)
  | .off i j => segHigh s i ∧ segsOff s (some i) i ∧
      ∀ d ∈ assignedSlots s.digitSlots, line s.trace d.2 = some (if d.1 < j then .high else lvl s i d.1)
  | .segOff i => segHigh s i ∧ segsOff s (some i) i ∧
      ∀ d ∈ assignedSlots s.digitSlots, line s.trace d.2 = some .high

/-- The line invariant: with distinct pins, the levels of R93 hold at every point of every scan. -/
def LineInv (s : State) : Prop := PinsDistinct s → lineLevels s

/-- Lamp (i, j) is driven lit (R93): its segment line is `HIGH` and its digit line is `LOW`. -/
def lampLit (s : State) (segPin digitPin : Pin) : Prop :=
  line s.trace segPin = some .high ∧ line s.trace digitPin = some .low

/-- An event with its pin renamed. -/
def renameEvent (f : Pin → Pin) : Event → Event
  | .cfgOut p => .cfgOut (f p)
  | .setOut p l => .setOut (f p) l
  | .wait n => .wait n

/-- A slot with its pin renamed. -/
def renameSlot (f : Pin → Pin) (sl : Slot) : Slot := { sl with pin := f sl.pin }

/-- A sequencer state with the pins of a running CONFIG renamed. -/
def renameSeq (f : Pin → Pin) : Seq → Seq
  | .idle => .idle
  | .cfg k pins => .cfg k (pins.map f)
  | .segOn i => .segOn i
  | .drive i j => .drive i j
  | .wait i => .wait i
  | .off i j => .off i j
  | .segOff i => .segOff i

/-- A state with every pin identifier it holds renamed; the bytes still on the command port are not pins yet. -/
def renamePins (f : Pin → Pin) (s : State) : State :=
  { s with
    digitSlots := s.digitSlots.map (renameSlot f)
    segSlots := s.segSlots.map (renameSlot f)
    seq := renameSeq f s.seq
    trace := s.trace.map (renameEvent f) }

/-- A command with its pin identifiers renamed. -/
def renameInstr (f : Pin → Pin) : Instr → Instr
  | .config dpins spins => .config (dpins.map f) (spins.map f)
  | .setd position symbol => .setd position symbol
  | .setds symbols => .setds symbols
  | .refresh dwell => .refresh dwell

end Sys2Proof.Machine
end

