-- ==== Sys2Proof/Certificates/Slice0/Obligations.lean ====
section
/-!
DEFINITION. The statements for the provers, from the numbered rules of spec/. Every statement over all states holds for every
value of the parameters of R6, since a state carries them (log entry 1). No statement rests on a default glyph or on a value
the model gives at reset, but where its docstring says so.
-/

section
open Sys2Proof Sys2Proof.Machine

/-! The transport (30_encoding.md). -/

/-- R60, R62, R63: decoding the encoding of any command gives that command, and leaves the bytes after it. -/
def Obligations.EncodedCommandDecodesBack : Prop :=
  ∀ (c : Config) (i : Instr) (rest : List Byte), i.wf c = true → decode c (encode c i ++ rest) = .command i rest

/-- R60, R63: what the decoder reads as a command is well formed and stood in the stream as exactly its encoding. -/
def Obligations.DecodedCommandIsItsEncoding : Prop :=
  ∀ (c : Config) (bs : List Byte) (i : Instr) (rest : List Byte), decode c bs = .command i rest →
    i.wf c = true ∧ bs = encode c i ++ rest

/-- R61, R64 item 3: the reserved outcome is that of a stream whose first byte is 0x00 or 0x05..0xFF, and no other. -/
def Obligations.ReservedExactlyUnlistedOpcodes : Prop :=
  ∀ (c : Config) (bs : List Byte) (b : Byte), decode c bs = .reserved b ↔
    (b.toNat = 0 ∨ 5 ≤ b.toNat) ∧ ∃ rest, bs = b :: rest

/-- R65: a command cut off before its last byte is incomplete, wherever it is cut. -/
def Obligations.TruncatedCommandIsIncomplete : Prop :=
  ∀ (c : Config) (i : Instr) (n : Nat), i.wf c = true → n < (encode c i).length →
    decode c ((encode c i).take n) = .incomplete

/-- The worked encodings of 30_encoding.md and of 95_test_vectors.md B5, one per format and one per corner. -/
def Obligations.WorkedEncodingsDecode : Prop :=
  decode defaultConfig [0x01#8, 0x04#8, 0x07#8, 0x02#8, 0x03#8, 0x04#8, 0x05#8, 0x06#8, 0x07#8, 0x08#8, 0x09#8, 0x0A#8,
      0x0B#8, 0x0C#8] = .command (.config [2#8, 3#8, 4#8, 5#8] [6#8, 7#8, 8#8, 9#8, 10#8, 11#8, 12#8]) [] ∧
  decode defaultConfig [0x02#8, 0x02#8, 0x07#8] = .command (.setd 2#8 7#8) [] ∧
  decode defaultConfig [0x03#8, 0x04#8, 0x11#8, 0x04#8, 0x02#8, 0x11#8] = .command (.setds [17#8, 4#8, 2#8, 17#8]) [] ∧
  decode defaultConfig [0x04#8, 0xE8#8, 0x03#8, 0x00#8, 0x00#8] = .command (.refresh 1000) [] ∧
  decode { defaultConfig with dwellBytes := 2 } [0x04#8, 0xE8#8, 0x03#8] = .command (.refresh 1000) [] ∧
  decode defaultConfig [0x05#8, 0x00#8, 0x00#8] = .reserved 0x05#8 ∧
  decode defaultConfig [0x04#8, 0x00#8, 0x00#8, 0x00#8] = .incomplete

/-- R59: the worked commands in the mnemonic form and in the source's call form, and the pseudo-instructions `REFRESH` with no
operand and `CLEAR j`. -/
def Obligations.AssemblerReadsBothSyntaxes : Prop :=
  assembleLine defaultConfig "CONFIG [2,3,4,5], [6,7,8,9,10,11,12]".toList =
    some (.config [2#8, 3#8, 4#8, 5#8] [6#8, 7#8, 8#8, 9#8, 10#8, 11#8, 12#8]) ∧
  assembleLine defaultConfig "new([2,3,4,5], [6,7,8,9,10,11,12])".toList =
    some (.config [2#8, 3#8, 4#8, 5#8] [6#8, 7#8, 8#8, 9#8, 10#8, 11#8, 12#8]) ∧
  assembleLine defaultConfig "SETD 2, 7".toList = some (.setd 2#8 7#8) ∧
  assembleLine defaultConfig "set_digit(0x02, 0b111)".toList = some (.setd 2#8 7#8) ∧
  assembleLine defaultConfig "SETDS [DASH, 4, 2, DASH]".toList = some (.setds [17#8, 4#8, 2#8, 17#8]) ∧
  assembleLine defaultConfig "set_digits([DASH, 4, 2, DASH])".toList = some (.setds [17#8, 4#8, 2#8, 17#8]) ∧
  assembleLine defaultConfig "REFRESH 1000".toList = some (.refresh 1000) ∧
  assembleLine defaultConfig "refresh(1000)".toList = some (.refresh 1000) ∧
  (assembleLine defaultConfig "REFRESH".toList).map (fun i => [i]) = some (expandPseudo .refreshDefault) ∧
  (assembleLine defaultConfig "refresh()".toList).map (fun i => [i]) = some (expandPseudo .refreshDefault) ∧
  (assembleLine defaultConfig "CLEAR 3".toList).map (fun i => [i]) = some (expandPseudo (.clear 3#8))

/-! One step (10_state.md, 20_memory.md, 60_exceptions.md). -/

/-- R22, R37: in `IDLE`, with no reset asserted, a step executes the command the stream begins with, its bytes consumed. -/
def Obligations.StepRunsDecodedCommand : Prop :=
  ∀ (s : State) (i : Instr) (rest : List Byte), s.resetReq = false → s.seq = .idle →
    decode s.cfg s.cmd = .command i rest → step s = exec i (withCmd rest s)

/-- R65: a command of which only the first n bytes have arrived is not executed, not even in part; the block waits, which
is not the end of the run; when the other bytes arrive the command is executed. That a wait is a step that changes nothing
is the model's choice (log entry 7). -/
def Obligations.IncompleteCommandWaitsThenRuns : Prop :=
  ∀ (s : State) (i : Instr) (n : Nat), s.resetReq = false → s.seq = .idle → i.wf s.cfg = true →
    n < (encode s.cfg i).length → s.cmd = (encode s.cfg i).take n →
    step s = .next s ∧ (0 < n → ¬ Ended s) ∧
    step (hostSend ((encode s.cfg i).drop n) s) = exec i (withCmd [] s)

/-- R99: a step is refused in exactly the four listed cases, each under its own name. -/
def Obligations.RefusalsAreTheListedCases : Prop :=
  ∀ (s : State) (r : Refusal), step s = .refused r ↔
    (s.resetReq = true ∧ s.seq ≠ .idle ∧ r = .resetWhileBusy) ∨
    (s.resetReq = false ∧ s.seq = .idle ∧
      ((∃ b rest, s.cmd = b :: rest ∧ (b.toNat = 0 ∨ 5 ≤ b.toNat) ∧ r = .reservedOpcode b) ∨
       (∃ dpins spins rest, decode s.cfg s.cmd = .command (.config dpins spins) rest ∧
          s.constructed = true ∧ r = .alreadyConstructed) ∨
       (∃ i rest, decode s.cfg s.cmd = .command i rest ∧ (∀ dpins spins, i ≠ .config dpins spins) ∧
          s.constructed = false ∧ r = .notConstructed)))

/-- R32, R95, D28: from a state that meets the invariant no step faults, whatever the command. -/
def Obligations.NoFaultUnderInvariant : Prop :=
  ∀ s : State, Inv s → ∀ f : Fault, step s ≠ .fault f

/-- R91, R49: a step in `IDLE` emits nothing; a step in any other `seq` value appends exactly one event. -/
def Obligations.OneEventPerSequencerStep : Prop :=
  ∀ s t : State, s.resetReq = false → step s = .next t →
    (s.seq = .idle → t.trace = s.trace) ∧ (s.seq ≠ .idle → ∃ e, t.trace = s.trace ++ [e])

/-- R107, R108, R109: `CfgOut` is emitted only while a CONFIG runs, `SetOut` and `Wait` only in their steps of a REFRESH; so no
other step changes the line view. -/
def Obligations.EachEventHasItsSequencerState : Prop :=
  ∀ s t : State, s.resetReq = false → step s = .next t →
    (∀ p, t.trace = s.trace ++ [.cfgOut p] → ∃ k pins, s.seq = .cfg k pins) ∧
    (∀ p l, t.trace = s.trace ++ [.setOut p l] →
      ∃ i j, s.seq = .segOn i ∨ s.seq = .drive i j ∨ s.seq = .off i j ∨ s.seq = .segOff i) ∧
    (∀ n, t.trace = s.trace ++ [.wait n] → n = s.dw ∧ ∃ i, s.seq = .wait i) ∧
    (∀ p, line t.trace p ≠ line s.trace p → t.trace = s.trace ++ [.setOut p .high] ∨ t.trace = s.trace ++ [.setOut p .low])

/-- R48, D3: while a command runs, bytes the host sends neither change what the step does nor are touched by it. -/
def Obligations.RunningCommandIgnoresCommandPort : Prop :=
  ∀ (s : State) (bs : List Byte), s.seq ≠ .idle → step (hostSend bs s) = mapNext (hostSend bs) (step s)

/-- R30, R31: no step changes the parameters, the digit glyphs of the ROM among them. -/
def Obligations.ParametersNeverChange : Prop :=
  ∀ s t : State, step s = .next t → t.cfg = s.cfg

/-- R29: `constructed` is set only by accepting a CONFIG and cleared only by reset. -/
def Obligations.ConstructedChangesOnlyByConfigOrReset : Prop :=
  ∀ s t : State, step s = .next t →
    (s.constructed = true → t.constructed = false → s.resetReq = true) ∧
    (s.constructed = false → t.constructed = true → s.resetReq = false ∧ s.seq = .idle ∧
      ∃ dpins spins rest, decode s.cfg s.cmd = .command (.config dpins spins) rest)

/-- R23, R25: once an instance exists no step but a reset writes a slot. -/
def Obligations.PinAssignmentHeldForLifetime : Prop :=
  ∀ s t : State, s.resetReq = false → s.constructed = true → step s = .next t →
    t.digitSlots = s.digitSlots ∧ t.segSlots = s.segSlots

/-- R17, R35: once an instance exists the Display State changes only in a step that accepts a SETD or a SETDS. -/
def Obligations.DisplayStateWrittenOnlyBySetters : Prop :=
  ∀ s t : State, s.resetReq = false → s.constructed = true → step s = .next t → t.ds ≠ s.ds →
    s.seq = .idle ∧ ∃ i rest, decode s.cfg s.cmd = .command i rest ∧
      ((∃ position symbol, i = .setd position symbol) ∨ ∃ symbols, i = .setds symbols)

/-! Invariants. -/

/-- R15, R16, R22, R23, R25, R26, R27: every step keeps the structural invariant: array sizes, prefix shape, the width of
`dw`, a legal `seq`, and nothing assigned, running or emitted before CONFIG. -/
def Obligations.StructuralInvariantKept : Prop :=
  ∀ s t : State, Inv s → step s = .next t → Inv t

/-- R32: the reset state meets the four invariants for every legal parameter value. The width of `dw` at reset rests on the
model's choice of 0 (log entry 3). -/
def Obligations.ResetMeetsTheInvariants : Prop :=
  (∀ c : Config, c.Legal → Inv (State.resetWith c) ∧ RomOnly (State.resetWith c) ∧
    DrivenConfigured (State.resetWith c) ∧ LineInv (State.resetWith c)) ∧ Inv State.reset

/-- R18: from the first CONFIG on every `DS[j]` is a ROM entry, and its bit 7 is 0; every step keeps it. -/
def Obligations.DisplayHoldsOnlyRomPatterns : Prop :=
  ∀ s t : State, RomOnly s → step s = .next t →
    RomOnly t ∧ (t.constructed = true → ∀ b ∈ t.ds, b.getLsbD 7 = false)

/-- R108: the block drives only pins it has configured in this instance; every step keeps it. -/
def Obligations.DrivenPinsWereConfigured : Prop :=
  ∀ s t : State, DrivenConfigured s → step s = .next t → DrivenConfigured t

/-- R93, R94: with distinct pins, at every point of every scan at most the open window's segment line has been driven `HIGH`
and left so, and the digit lines stand as the scan's phase says; every step keeps it. The levels of the `DRIVE` and `OFF` phases
are those of R82; that they are followed where R93's last clause says otherwise is the model's choice (log entry 22). -/
def Obligations.LineLevelsKept : Prop :=
  ∀ s t : State, Inv s → LineInv s → step s = .next t → LineInv t

/-! CONFIG (41_construction.md). -/

/-- R71, R72, R73: what accepting a CONFIG writes, and that it writes nothing else. The pin byte of a slot left unassigned is
unspecified (R24), so nothing is said of it. -/
def Obligations.ConfigStoresPinAssignment : Prop :=
  ∀ (s : State) (dpins spins : List Pin), s.constructed = false → s.seq = .idle →
    s.digitSlots.length = s.cfg.numDigits → s.segSlots.length = 8 →
    ∃ t, exec (.config dpins spins) s = .next t ∧
      t.constructed = true ∧
      t.digitSlots.length = s.cfg.numDigits ∧ t.segSlots.length = 8 ∧
      (∀ k p, k < s.cfg.numDigits → dpins[k]? = some p → t.digitSlots[k]? = some ⟨true, p⟩) ∧
      (∀ k, dpins.length ≤ k → isAssigned t.digitSlots k = false) ∧
      (∀ k p, k < 8 → spins[k]? = some p → t.segSlots[k]? = some ⟨true, p⟩) ∧
      (∀ k, spins.length ≤ k → isAssigned t.segSlots k = false) ∧
      t.ds = List.replicate s.cfg.numDigits (decodeSymbol s.cfg emptySymbol) ∧
      t.seq = (if configPins s.cfg dpins spins = [] then .idle else .cfg 0 (configPins s.cfg dpins spins)) ∧
      t.cfg = s.cfg ∧ t.dw = s.dw ∧ t.cmd = s.cmd ∧ t.trace = s.trace ∧ t.resetReq = s.resetReq

/-- R72, R73, C4: the event list E for each value of the two parameters. -/
def Obligations.ConfigEventListByParameters : Prop :=
  ∀ (c : Config) (dpins spins : List Pin),
    (c.groupOrder = .digitsFirst → c.extrasConfigured = false →
      configPins c dpins spins = dpins.take c.numDigits ++ spins.take 8) ∧
    (c.groupOrder = .digitsFirst → c.extrasConfigured = true → configPins c dpins spins = dpins ++ spins) ∧
    (c.groupOrder = .segmentsFirst → c.extrasConfigured = false →
      configPins c dpins spins = spins.take 8 ++ dpins.take c.numDigits) ∧
    (c.groupOrder = .segmentsFirst → c.extrasConfigured = true → configPins c dpins spins = spins ++ dpins)

/-- R74: CONFIG writes 0x00 to every `DS[j]`, assigned or not, so a REFRESH right after it drives every digit line `HIGH` in
every window. -/
def Obligations.ConfigLeavesEveryDigitBlank : Prop :=
  ∀ (s : State) (dpins spins : List Pin), s.constructed = false →
    ∃ t, exec (.config dpins spins) s = .next t ∧ t.ds.length = s.cfg.numDigits ∧
      (∀ j, j < s.cfg.numDigits → t.ds[j]? = some 0x00#8) ∧
      ∀ i, ∀ e ∈ driveEvents t i, ∃ p, e = .setOut p .high

/-- R71, R73: a CONFIG command runs, event by event, to the state and the trace of its one-step form, and is back in `IDLE`
exactly after its last event. That every event completes is the assumption of R106 (log entry 14). -/
def Obligations.ConfigRunEmitsItsEventList : Prop :=
  ∀ (s : State) (dpins spins : List Pin) (rest : List Byte), s.resetReq = false → s.seq = .idle →
    s.constructed = false → (Instr.config dpins spins).wf s.cfg = true →
    s.cmd = encode s.cfg (.config dpins spins) ++ rest →
    run (1 + (configPins s.cfg dpins spins).length) s = .next (withCmd rest (configResult dpins spins s)) ∧
    ∀ m ≤ (configPins s.cfg dpins spins).length, ∃ t, run (1 + m) s = .next t ∧
      t.trace = s.trace ++ ((configPins s.cfg dpins spins).take m).map Event.cfgOut ∧
      (t.seq = .idle ↔ m = (configPins s.cfg dpins spins).length)

/-! SETD and SETDS (42_state_mutation.md). -/

/-- R78: the four cases of SETD; in the three no-op cases nothing at all changes; symbols 10 to 15 write 0x00. -/
def Obligations.SetdWritesOneEntryOrNothing : Prop :=
  ∀ (s : State) (position symbol : Byte), s.constructed = true → s.ds.length = s.cfg.numDigits →
    ∃ t, exec (.setd position symbol) s = .next t ∧
      (position.toNat < s.cfg.numDigits → ∀ sym : Symbol, symbol.toNat = sym.val →
        t = { s with ds := t.ds } ∧ t.ds.length = s.ds.length ∧
        t.ds[position.toNat]? = some (decodeSymbol s.cfg sym) ∧
        (∀ j, j ≠ position.toNat → t.ds[j]? = s.ds[j]?) ∧
        (10 ≤ symbol.toNat → symbol.toNat ≤ 15 → t.ds[position.toNat]? = some 0x00#8)) ∧
      (s.cfg.numDigits ≤ position.toNat ∨ 17 < symbol.toNat → t = s)

/-- R80: SETDS updates exactly the positions k < min(n, `NUM_DIGITS`), each subject to its own symbol test. -/
def Obligations.SetdsUpdatesSuppliedPositions : Prop :=
  ∀ (s : State) (symbols : List Byte), s.constructed = true → s.ds.length = s.cfg.numDigits →
    ∃ t, exec (.setds symbols) s = .next t ∧ t = { s with ds := t.ds } ∧ t.ds.length = s.ds.length ∧
      (∀ (k : Nat) (b : Byte), k < min symbols.length s.cfg.numDigits → symbols[k]? = some b →
        (∀ sym : Symbol, b.toNat = sym.val → t.ds[k]? = some (decodeSymbol s.cfg sym)) ∧
        (17 < b.toNat → t.ds[k]? = s.ds[k]?)) ∧
      ∀ k, min symbols.length s.cfg.numDigits ≤ k → t.ds[k]? = s.ds[k]?

/-- R59, R79: SETDS has the effect of its expansion into one SETD per symbol. -/
def Obligations.SetdsActsAsSetdSequence : Prop :=
  ∀ (s : State) (symbols : List Byte), s.constructed = true → symbols.length ≤ 255 →
    exec (.setds symbols) s = execAll (expandPseudo (.eachDigit symbols)) s

/-- R81: after any list of whole commands on an instance, each with its full effect (a REFRESH with its whole scan, R82), each
position holds the pattern of the last symbol written to it, or what it held before when none was; REFRESH commands in between
change nothing. Right after the CONFIG that begins the instance "before" is 0x00. Where the list has no REFRESH, executing the
commands one after the other by `exec` gives this very state; a REFRESH takes more steps than its accept step (log entries 11,
12), and CommandStreamRunsToItsEnd says that a run of the steps reaches the same result. -/
def Obligations.LastWriteWins : Prop :=
  ∀ (s : State) (cmds : List Instr), (∀ i ∈ cmds, ∀ dpins spins, i ≠ .config dpins spins) →
    (s.constructed = true → s.ds.length = s.cfg.numDigits →
      (cmds.foldl (fun u i => commandResult i u) s).ds.length = s.ds.length ∧
      (∀ j, j < s.cfg.numDigits →
        (∀ sym, lastSymbol s.cfg j cmds = some sym →
          (cmds.foldl (fun u i => commandResult i u) s).ds[j]? = some (decodeSymbol s.cfg sym)) ∧
        (lastSymbol s.cfg j cmds = none → (cmds.foldl (fun u i => commandResult i u) s).ds[j]? = s.ds[j]?)) ∧
      ((∀ i ∈ cmds, ∀ dwell, i ≠ .refresh dwell) →
        execAll cmds s = .next (cmds.foldl (fun u i => commandResult i u) s))) ∧
    (s.constructed = false → ∀ (dpins spins : List Pin) (j : Nat), j < s.cfg.numDigits →
      (cmds.foldl (fun u i => commandResult i u) (configResult dpins spins s)).ds[j]? =
        some (((lastSymbol s.cfg j cmds).map (decodeSymbol s.cfg)).getD 0x00#8))

/-! REFRESH (43_refresh.md). -/

/-- R85: `nextSeg` and `nextDig` answer the least assigned slot at or above their argument, and the accept step latches the
dwell, goes to the first assigned segment slot or stays in `IDLE`, and emits nothing. -/
def Obligations.RefreshAcceptGoesToFirstWindow : Prop :=
  (∀ (slots : List Slot) (k m : Nat), nextAssigned slots k = some m ↔
    k ≤ m ∧ m < slots.length ∧ isAssigned slots m = true ∧ ∀ m', k ≤ m' → m' < m → isAssigned slots m' = false) ∧
  (∀ (slots : List Slot) (k : Nat), nextAssigned slots k = none ↔
    ∀ m, k ≤ m → m < slots.length → isAssigned slots m = false) ∧
  (∀ (s : State) (dwell : Nat), s.constructed = true → s.seq = .idle →
    (nextAssigned s.segSlots 0 = none → exec (.refresh dwell) s = .next { s with dw := dwell, seq := .idle }) ∧
    ∀ i, nextAssigned s.segSlots 0 = some i → exec (.refresh dwell) s = .next { s with dw := dwell, seq := .segOn i })

/-- R86: the step of `SEG_ON(i)`. -/
def Obligations.SegOnStep : Prop :=
  ∀ (s : State) (i : Nat) (p : Pin), s.resetReq = false → s.seq = .segOn i → s.segSlots[i]? = some ⟨true, p⟩ →
    step s = .next { s with
      trace := s.trace ++ [.setOut p .high]
      seq := match nextAssigned s.digitSlots 0 with | none => .wait i | some j => .drive i j }

/-- R87: the step of `DRIVE(i, j)`: `LOW` if and only if bit i of `DS[j]` is 1; every other step of a running command passes
`DS` through unread. -/
def Obligations.DriveStep : Prop :=
  (∀ (s : State) (i j : Nat) (p : Pin) (b : Byte), s.resetReq = false → s.seq = .drive i j → i < 8 →
    s.digitSlots[j]? = some ⟨true, p⟩ → s.ds[j]? = some b →
    step s = .next { s with
      trace := s.trace ++ [.setOut p (if b.getLsbD i = true then .low else .high)]
      seq := match nextAssigned s.digitSlots (j + 1) with | none => .wait i | some j' => .drive i j' }) ∧
  ∀ (s : State) (d : List Byte), s.resetReq = false → s.seq ≠ .idle → (∀ i j, s.seq ≠ .drive i j) →
    step { s with ds := d } = mapNext (fun t => { t with ds := d }) (step s)

/-- R88: the step of `WAIT(i)`, for every `dw`, 0 among them. -/
def Obligations.WaitStep : Prop :=
  ∀ (s : State) (i : Nat), s.resetReq = false → s.seq = .wait i →
    step s = .next { s with
      trace := s.trace ++ [.wait s.dw]
      seq := match nextAssigned s.digitSlots 0 with | none => .segOff i | some j => .off i j }

/-- R89: the step of `OFF(i, j)`: `HIGH` whatever `DS` holds. -/
def Obligations.OffStep : Prop :=
  ∀ (s : State) (i j : Nat) (p : Pin), s.resetReq = false → s.seq = .off i j → s.digitSlots[j]? = some ⟨true, p⟩ →
    step s = .next { s with
      trace := s.trace ++ [.setOut p .high]
      seq := match nextAssigned s.digitSlots (j + 1) with | none => .segOff i | some j' => .off i j' }

/-- R90: the step of `SEG_OFF(i)`; after slot 7 there is no next window. -/
def Obligations.SegOffStep : Prop :=
  ∀ (s : State) (i : Nat) (p : Pin), s.resetReq = false → s.seq = .segOff i → s.segSlots[i]? = some ⟨true, p⟩ →
    step s = .next { s with
      trace := s.trace ++ [.setOut p .low]
      seq := match nextAssigned s.segSlots (i + 1) with | none => .idle | some i' => .segOn i' } ∧
    (s.segSlots.length = 8 → nextAssigned s.segSlots 8 = none)

/-- R91, R82, R83: the steps of one REFRESH emit exactly the trace function's list, one event a step after one accept step,
are back in `IDLE` exactly after the last, and leave every register but `dw` unchanged. That every event completes is the
assumption of R106 (log entry 14). -/
def Obligations.RefreshRunEmitsTheTraceFunction : Prop :=
  ∀ (s : State) (dwell : Nat) (rest : List Byte), Inv s → s.resetReq = false → s.seq = .idle → s.constructed = true →
    (Instr.refresh dwell).wf s.cfg = true → s.cmd = encode s.cfg (.refresh dwell) ++ rest →
    run (1 + (refreshTrace s dwell).length) s = .next (withCmd rest (refreshResult dwell s)) ∧
    ∀ m ≤ (refreshTrace s dwell).length, ∃ t, run (1 + m) s = .next t ∧
      t.trace = s.trace ++ (refreshTrace s dwell).take m ∧
      (t.seq = .idle ↔ m = (refreshTrace s dwell).length)

/-- R92: the number of events of one REFRESH, and with distinct pins the writes of each line: one `HIGH` and then one `LOW`
on each segment line, 2 * `nseg` writes on each digit line. -/
def Obligations.RefreshEventCounts : Prop :=
  ∀ (s : State) (dwell : Nat),
    (refreshTrace s dwell).length = assignedCount s.segSlots * (2 * assignedCount s.digitSlots + 3) ∧
    (refreshTrace s dwell).count (.wait dwell) = assignedCount s.segSlots ∧
    (PinsDistinct s →
      (∀ g ∈ assignedSlots s.segSlots,
        (refreshTrace s dwell).count (.setOut g.2 .high) = 1 ∧ (refreshTrace s dwell).count (.setOut g.2 .low) = 1 ∧
        ∃ before between after, refreshTrace s dwell =
          before ++ .setOut g.2 .high :: (between ++ .setOut g.2 .low :: after)) ∧
      ∀ d ∈ assignedSlots s.digitSlots,
        (refreshTrace s dwell).count (.setOut d.2 .high) + (refreshTrace s dwell).count (.setOut d.2 .low) =
          2 * assignedCount s.segSlots)

/-- R84: no event names the pin of an unassigned slot; with no assigned segment slot nothing is emitted; with no assigned
digit slot a window is three events; `DS[j]` of an unassigned digit has no influence. -/
def Obligations.UnassignedSlotsContributeNothing : Prop :=
  ∀ (s : State) (dwell : Nat),
    (∀ p l, Event.setOut p l ∈ refreshTrace s dwell →
      ∃ k : Nat, s.segSlots[k]? = some (Slot.mk true p) ∨ s.digitSlots[k]? = some (Slot.mk true p)) ∧
    ((∀ k, isAssigned s.segSlots k = false) → refreshTrace s dwell = []) ∧
    ((∀ k, isAssigned s.digitSlots k = false) → refreshTrace s dwell =
      (assignedSlots s.segSlots).flatMap fun g => [.setOut g.2 .high, .wait dwell, .setOut g.2 .low]) ∧
    ∀ j v, isAssigned s.digitSlots j = false → refreshTrace (writeDs j v s) dwell = refreshTrace s dwell

/-- R118, R84: the trace of a REFRESH depends on `DS` through the bits of assigned pairs only: a segment slot without a pin
disables its bit for every digit, and a digit slot without a pin its digit. -/
def Obligations.TraceReadsOnlyAssignedBits : Prop :=
  ∀ (s : State) (d : List Byte) (dwell : Nat),
    (∀ g ∈ assignedSlots s.segSlots, ∀ e ∈ assignedSlots s.digitSlots,
      readDsBit { s with ds := d } e.1 g.1 = readDsBit s e.1 g.1) →
    refreshTrace { s with ds := d } dwell = refreshTrace s dwell

/-- R120: whatever has been written, every digit line is driven `HIGH` in window 7. -/
def Obligations.DecimalPointNeverLit : Prop :=
  ∀ s : State, RomOnly s → s.constructed = true → ∀ e ∈ driveEvents s 7, ∃ p, e = .setOut p .high

/-- R93: in a REFRESH with distinct pins, each assigned segment slot has its dwell; at that moment its line is `HIGH`, each
digit line is `LOW` if and only if its pattern bit is 1, the earlier segment lines are `LOW`, and the later ones stand as they
stood before this REFRESH. That the events before the dwell complete is the assumption of R106 (log entry 14). -/
def Obligations.DwellWindowLevels : Prop :=
  ∀ (s : State) (dwell : Nat) (rest : List Byte), Inv s → s.resetReq = false → s.seq = .idle → s.constructed = true →
    PinsDistinct s → (Instr.refresh dwell).wf s.cfg = true → s.cmd = encode s.cfg (.refresh dwell) ++ rest →
    ∀ g ∈ assignedSlots s.segSlots, ∃ m t u, run m s = .next t ∧ t.seq = .wait g.1 ∧
      step t = .next u ∧ u.trace = t.trace ++ [.wait dwell] ∧
      line t.trace g.2 = some .high ∧
      (∀ d ∈ assignedSlots s.digitSlots,
        line t.trace d.2 = some (if readDsBit s d.1 g.1 = some true then .low else .high)) ∧
      (∀ h ∈ assignedSlots s.segSlots, h.1 < g.1 → line t.trace h.2 = some .low) ∧
      ∀ h ∈ assignedSlots s.segSlots, g.1 < h.1 → line t.trace h.2 = line s.trace h.2

/-- R94: with distinct pins, after a REFRESH with at least one assigned segment slot every assigned digit line is `HIGH` and
every assigned segment line is `LOW`, whatever the lines were; with none, no line changes. -/
def Obligations.DisplayDarkAfterRefresh : Prop :=
  ∀ (s : State) (dwell : Nat),
    (PinsDistinct s → assignedSlots s.segSlots ≠ [] →
      (∀ g ∈ assignedSlots s.segSlots, line (refreshResult dwell s).trace g.2 = some .low) ∧
      ∀ d ∈ assignedSlots s.digitSlots, line (refreshResult dwell s).trace d.2 = some .high) ∧
    (assignedSlots s.segSlots = [] → ∀ p, line (refreshResult dwell s).trace p = line s.trace p)

/-- R12: `Line(T, p)` is the level of the last `SetOut(p, ..)` in T, and `UNKNOWN` exactly when there is none. -/
def Obligations.LineViewIsTheLastSetOut : Prop :=
  ∀ (T : List Event) (p : Pin),
    (∀ l, line T p = some l ↔ ∃ before after, T = before ++ .setOut p l :: after ∧ ∀ l', Event.setOut p l' ∉ after) ∧
    (line T p = none ↔ ∀ l, Event.setOut p l ∉ T)

/-- R93: with distinct pins, during the dwell of window i the lamps driven lit are exactly those of segment i whose pattern bit
is 1. The last clause of R93, that no lamp is lit outside the dwells, conflicts with R82, R87 and R89, by which a lamp is lit
from its digit line's `DRIVE` step to its `OFF` step. That the model follows R82 here and holds the last clause outside the
`DRIVE`, dwell and `OFF` phases only is its own choice (log entry 22, DESIGN CHOICE); the clauses on `DRIVE` and `OFF` rest on
it, and say that the lamps lit there are among the window's own. -/
def Obligations.LitLampsAreThePatternBits : Prop :=
  ∀ s : State, LineInv s → PinsDistinct s →
    ∀ g ∈ assignedSlots s.segSlots, ∀ d ∈ assignedSlots s.digitSlots,
      (∀ i, s.seq = .wait i → (lampLit s g.2 d.2 ↔ g.1 = i ∧ readDsBit s d.1 i = some true)) ∧
      (∀ i j, s.seq = .drive i j → (lampLit s g.2 d.2 ↔ g.1 = i ∧ readDsBit s d.1 i = some true ∧ d.1 < j)) ∧
      (∀ i j, s.seq = .off i j → (lampLit s g.2 d.2 ↔ g.1 = i ∧ readDsBit s d.1 i = some true ∧ j ≤ d.1)) ∧
      ((s.seq = .idle ∨ (∃ k pins, s.seq = .cfg k pins) ∨ ∃ i, s.seq = .segOn i ∨ s.seq = .segOff i) →
        ¬ lampLit s g.2 d.2)

/-- R27: the value of `dw` between two REFRESH commands has no effect: a REFRESH overwrites it, and every other command, and
waiting, passes it through. -/
def Obligations.DwellLatchHasNoEffectBetweenRefreshes : Prop :=
  ∀ (s : State) (n : Nat), s.seq = .idle → s.resetReq = false →
    (∀ dwell, exec (.refresh dwell) (latchDwell n s) = exec (.refresh dwell) s) ∧
    ((∀ dwell rest, decode s.cfg s.cmd ≠ .command (.refresh dwell) rest) →
      step (latchDwell n s) = mapNext (latchDwell n) (step s))

/-! Whole-machine rules. -/

/-- R36, R76: pin identifiers are opaque: renaming them all, distinct or not, renames the outcome of every command and of
every step of a running command, and changes nothing else. The spec leaves the pin byte of an unassigned slot open (R24). That
the equality for CONFIG covers this byte too rests on the model's choice to keep it (log entry 4): a constant written there
would not be renamed. -/
def Obligations.PinIdentifiersAreOpaque : Prop :=
  ∀ (f : Pin → Pin) (s : State),
    (∀ i : Instr, exec (renameInstr f i) (renamePins f s) = mapNext (renamePins f) (exec i s)) ∧
    (s.seq ≠ .idle → step (renamePins f s) = mapNext (renamePins f) (step s))

/-- R102, R103, R91: every command whose precondition holds runs to its one-step result, back in `IDLE`, in one accept step
and one step per event. This rests on the fairness assumption of R106 and D22, that every event completes: the collaborators
neither fail nor stall (log entry 14). -/
def Obligations.EveryAcceptedCommandRunsToIdle : Prop :=
  ∀ (s : State) (i : Instr) (rest : List Byte), Inv s → s.resetReq = false → s.seq = .idle →
    decode s.cfg s.cmd = .command i rest → accepts i s = true →
    run (1 + (commandEvents i s).length) s = .next (withCmd rest (commandResult i s)) ∧
    (commandResult i s).seq = .idle ∧ (commandResult i s).trace = s.trace ++ commandEvents i s

/-- R123, R37: a stream of complete commands on an instance runs to the end of the run: `IDLE`, no bytes left, and the state
and trace the commands' one-step forms give in stream order. This rests on the fairness assumption of R106 and D22, that every
event completes (log entry 14). -/
def Obligations.CommandStreamRunsToItsEnd : Prop :=
  ∀ (s : State) (cmds : List Instr), Inv s → s.resetReq = false → s.seq = .idle → s.constructed = true →
    (∀ i ∈ cmds, i.wf s.cfg = true ∧ ∀ dpins spins, i ≠ .config dpins spins) →
    s.cmd = cmds.flatMap (encode s.cfg) →
    ∃ n t, run n s = .next t ∧ Ended t ∧ t = withCmd [] (cmds.foldl (fun u i => commandResult i u) s)

/-- R111, R124: a reset taken in `IDLE` leaves no instance, emits no event and keeps the parameters; a reset while a command
runs is refused. Two clauses are the model's choice and no rule of the spec (log entry 9): that the bytes still on the command
port are kept, and that the reset input is released by the step that takes it. -/
def Obligations.ResetLeavesNoInstance : Prop :=
  ∀ s : State, s.resetReq = true →
    (s.seq = .idle → ∃ t, step s = .next t ∧ t.constructed = false ∧ t.seq = .idle ∧
      (∀ k, isAssigned t.digitSlots k = false ∧ isAssigned t.segSlots k = false) ∧
      t.trace = [] ∧ t.resetReq = false ∧ t.cfg = s.cfg ∧ t.cmd = s.cmd) ∧
    (s.seq ≠ .idle → step s = .refused .resetWhileBusy)

/-- R68: what every value of the parameter `DEC_ROM[0..9]` gives: every entry has bit 7 = 0, entries 10..16 are 0x00, entry 17
is 0x40. -/
def Obligations.RomEntriesForEveryParameter : Prop :=
  ∀ (c : Config) (sym : Symbol), (decodeSymbol c sym).toNat ≤ 127 ∧
    (10 ≤ sym.val → sym.val ≤ 16 → decodeSymbol c sym = 0x00#8) ∧
    (sym.val = 17 → decodeSymbol c sym = 0x40#8) ∧
    (∀ h : sym.val < 10, (decodeSymbol c sym).toNat = (c.digitGlyphs[sym.val]).toNat)

end
end

