-- ==== Sys2Proof/Laws/Decode.lean ====
section
/-!
SUPPORT. The transport's small laws: the opcode map and its inverse (spec R61), the little-endian operand (R39), the arrival
of a counted list (R62, R65).
-/
namespace Sys2Proof

/-- The opcode map inverts the opcode bytes (R61). -/
@[simp] theorem formatOf_opcodeByte (f : Format) : formatOf (opcodeByte f) = some f := by
  cases f <;> decide

/-- Only the opcode byte of a format selects it (R61). -/
theorem formatOf_eq_some {b : Byte} {f : Format} : formatOf b = some f ↔ b = opcodeByte f := by
  constructor
  · intro h
    unfold formatOf at h
    split_ifs at h <;> simp_all
  · rintro rfl; exact formatOf_opcodeByte f

/-- The other bytes are reserved (R64). -/
theorem formatOf_eq_none {b : Byte} : formatOf b = none ↔ ∀ f, b ≠ opcodeByte f := by
  constructor
  · rintro h f rfl; simp at h
  · intro h
    rcases hf : formatOf b with _ | f
    · rfl
    · exact absurd (formatOf_eq_some.mp hf) (h f)

@[simp] theorem leBytes_length (n : Nat) : ∀ v, (leBytes n v).length = n := by
  induction n with
  | zero => intro v; rfl
  | succ n ih => intro v; simp [leBytes, ih]

/-- The little-endian operand reads back (R39). -/
theorem leNat_leBytes (n : Nat) : ∀ v, v < 2 ^ (8 * n) → leNat (leBytes n v) = v := by
  induction n with
  | zero => intro v h; simp at h; simp [leBytes, leNat, h]
  | succ n ih =>
    intro v h
    have h2 : v / 256 < 2 ^ (8 * n) := by
      rw [Nat.div_lt_iff_lt_mul (by norm_num), show (256 : Nat) = 2 ^ 8 by norm_num, ← pow_add]
      exact h
    simp only [leBytes, leNat, ih _ h2, BitVec.toNat_ofNat]
    omega

/-- An operand of n bytes is below 2^(8n) (R62). -/
theorem leNat_lt (bs : List Byte) : leNat bs < 2 ^ (8 * bs.length) := by
  induction bs with
  | nil => simp [leNat]
  | cons b bs ih =>
    have hb := b.isLt
    simp only [leNat, List.length_cons, Nat.mul_add, pow_add]
    omega

/-- Reading an operand and laying it out again gives its bytes. -/
theorem leBytes_leNat (bs : List Byte) : leBytes bs.length (leNat bs) = bs := by
  induction bs with
  | nil => rfl
  | cons b bs ih =>
    have hb := b.isLt
    have h1 : (b.toNat + 256 * leNat bs) / 256 = leNat bs := by omega
    have h2 : BitVec.ofNat 8 (b.toNat + 256 * leNat bs) = b := by
      apply BitVec.eq_of_toNat_eq; simp [BitVec.toNat_ofNat]; omega
    simp only [List.length_cons, leBytes, leNat, h1, h2, ih]

/-- A counted list arrives whole or not at all (R65). -/
theorem takeBytes_eq_some {n : Nat} {bs xs rest : List Byte} :
    takeBytes n bs = some (xs, rest) ↔ xs.length = n ∧ bs = xs ++ rest := by
  unfold takeBytes
  constructor
  · intro h
    split at h
    · rename_i hn
      simp only [Option.some.injEq, Prod.mk.injEq] at h
      obtain ⟨rfl, rfl⟩ := h
      exact ⟨by simp [hn], by simp⟩
    · simp at h
  · rintro ⟨rfl, rfl⟩; simp

theorem takeBytes_eq_none {n : Nat} {bs : List Byte} : takeBytes n bs = none ↔ bs.length < n := by
  unfold takeBytes; split <;> simp <;> omega

end Sys2Proof
end

