-- ==== Sys2Proof/Laws/PerInstr.lean ====
section
/-!
SUPPORT. The family of per-instruction statements: the shape of each command's encoding (spec R60, R61, R63).
-/
namespace Sys2Proof.Laws.Encoding

/-- The encoding of `i` begins with the opcode byte of its format and has the length of R63. -/
def Statement (i : Instr) : Prop :=
  ∀ c : Config, (encode c i).head? = some (opcodeByte (formatOfInstr i)) ∧ (encode c i).length = commandLength c i

theorem config (dpins spins : List Pin) : Statement (.config dpins spins) := fun _ =>
  ⟨rfl, by simp [encode, operandBytes, commandLength]; omega⟩

theorem setd (position symbol : Byte) : Statement (.setd position symbol) := fun _ => ⟨rfl, rfl⟩

theorem setds (symbols : List Byte) : Statement (.setds symbols) := fun _ =>
  ⟨rfl, by simp [encode, operandBytes, commandLength]; omega⟩

theorem refresh (dwell : Nat) : Statement (.refresh dwell) := fun _ =>
  ⟨rfl, by simp [encode, operandBytes, commandLength]; omega⟩

end Sys2Proof.Laws.Encoding
end

