-- ==== Sys2Proof/Laws/State.lean ====
section
/-!
SUPPORT. One lemma per field per update of State, true by rfl: no later proof unfolds a record update.
-/
namespace Sys2Proof.Machine

/-! `emit` writes the trace and nothing else. -/

@[simp] theorem emit_cfg (e : Event) (s : State) : (emit e s).cfg = s.cfg := rfl
@[simp] theorem emit_ds (e : Event) (s : State) : (emit e s).ds = s.ds := rfl
@[simp] theorem emit_digitSlots (e : Event) (s : State) : (emit e s).digitSlots = s.digitSlots := rfl
@[simp] theorem emit_segSlots (e : Event) (s : State) : (emit e s).segSlots = s.segSlots := rfl
@[simp] theorem emit_constructed (e : Event) (s : State) : (emit e s).constructed = s.constructed := rfl
@[simp] theorem emit_seq (e : Event) (s : State) : (emit e s).seq = s.seq := rfl
@[simp] theorem emit_dw (e : Event) (s : State) : (emit e s).dw = s.dw := rfl
@[simp] theorem emit_cmd (e : Event) (s : State) : (emit e s).cmd = s.cmd := rfl
@[simp] theorem emit_trace (e : Event) (s : State) : (emit e s).trace = s.trace ++ [e] := rfl
@[simp] theorem emit_resetReq (e : Event) (s : State) : (emit e s).resetReq = s.resetReq := rfl

/-! `goto` writes the sequencer state and nothing else. -/

@[simp] theorem goto_cfg (q : Seq) (s : State) : (goto q s).cfg = s.cfg := rfl
@[simp] theorem goto_ds (q : Seq) (s : State) : (goto q s).ds = s.ds := rfl
@[simp] theorem goto_digitSlots (q : Seq) (s : State) : (goto q s).digitSlots = s.digitSlots := rfl
@[simp] theorem goto_segSlots (q : Seq) (s : State) : (goto q s).segSlots = s.segSlots := rfl
@[simp] theorem goto_constructed (q : Seq) (s : State) : (goto q s).constructed = s.constructed := rfl
@[simp] theorem goto_seq (q : Seq) (s : State) : (goto q s).seq = q := rfl
@[simp] theorem goto_dw (q : Seq) (s : State) : (goto q s).dw = s.dw := rfl
@[simp] theorem goto_cmd (q : Seq) (s : State) : (goto q s).cmd = s.cmd := rfl
@[simp] theorem goto_trace (q : Seq) (s : State) : (goto q s).trace = s.trace := rfl
@[simp] theorem goto_resetReq (q : Seq) (s : State) : (goto q s).resetReq = s.resetReq := rfl

/-! `latchDwell` writes the dwell latch and nothing else. -/

@[simp] theorem latchDwell_cfg (n : Nat) (s : State) : (latchDwell n s).cfg = s.cfg := rfl
@[simp] theorem latchDwell_ds (n : Nat) (s : State) : (latchDwell n s).ds = s.ds := rfl
@[simp] theorem latchDwell_digitSlots (n : Nat) (s : State) : (latchDwell n s).digitSlots = s.digitSlots := rfl
@[simp] theorem latchDwell_segSlots (n : Nat) (s : State) : (latchDwell n s).segSlots = s.segSlots := rfl
@[simp] theorem latchDwell_constructed (n : Nat) (s : State) : (latchDwell n s).constructed = s.constructed := rfl
@[simp] theorem latchDwell_seq (n : Nat) (s : State) : (latchDwell n s).seq = s.seq := rfl
@[simp] theorem latchDwell_dw (n : Nat) (s : State) : (latchDwell n s).dw = n := rfl
@[simp] theorem latchDwell_cmd (n : Nat) (s : State) : (latchDwell n s).cmd = s.cmd := rfl
@[simp] theorem latchDwell_trace (n : Nat) (s : State) : (latchDwell n s).trace = s.trace := rfl
@[simp] theorem latchDwell_resetReq (n : Nat) (s : State) : (latchDwell n s).resetReq = s.resetReq := rfl

/-! `withCmd` writes the command port and nothing else. -/

@[simp] theorem withCmd_cfg (bs : List Byte) (s : State) : (withCmd bs s).cfg = s.cfg := rfl
@[simp] theorem withCmd_ds (bs : List Byte) (s : State) : (withCmd bs s).ds = s.ds := rfl
@[simp] theorem withCmd_digitSlots (bs : List Byte) (s : State) : (withCmd bs s).digitSlots = s.digitSlots := rfl
@[simp] theorem withCmd_segSlots (bs : List Byte) (s : State) : (withCmd bs s).segSlots = s.segSlots := rfl
@[simp] theorem withCmd_constructed (bs : List Byte) (s : State) : (withCmd bs s).constructed = s.constructed := rfl
@[simp] theorem withCmd_seq (bs : List Byte) (s : State) : (withCmd bs s).seq = s.seq := rfl
@[simp] theorem withCmd_dw (bs : List Byte) (s : State) : (withCmd bs s).dw = s.dw := rfl
@[simp] theorem withCmd_cmd (bs : List Byte) (s : State) : (withCmd bs s).cmd = bs := rfl
@[simp] theorem withCmd_trace (bs : List Byte) (s : State) : (withCmd bs s).trace = s.trace := rfl
@[simp] theorem withCmd_resetReq (bs : List Byte) (s : State) : (withCmd bs s).resetReq = s.resetReq := rfl

/-! `writeDs` writes one Display State entry and nothing else. -/

@[simp] theorem writeDs_cfg (j : Nat) (v : Byte) (s : State) : (writeDs j v s).cfg = s.cfg := rfl
@[simp] theorem writeDs_ds (j : Nat) (v : Byte) (s : State) : (writeDs j v s).ds = s.ds.set j v := rfl
@[simp] theorem writeDs_digitSlots (j : Nat) (v : Byte) (s : State) : (writeDs j v s).digitSlots = s.digitSlots := rfl
@[simp] theorem writeDs_segSlots (j : Nat) (v : Byte) (s : State) : (writeDs j v s).segSlots = s.segSlots := rfl
@[simp] theorem writeDs_constructed (j : Nat) (v : Byte) (s : State) : (writeDs j v s).constructed = s.constructed := rfl
@[simp] theorem writeDs_seq (j : Nat) (v : Byte) (s : State) : (writeDs j v s).seq = s.seq := rfl
@[simp] theorem writeDs_dw (j : Nat) (v : Byte) (s : State) : (writeDs j v s).dw = s.dw := rfl
@[simp] theorem writeDs_cmd (j : Nat) (v : Byte) (s : State) : (writeDs j v s).cmd = s.cmd := rfl
@[simp] theorem writeDs_trace (j : Nat) (v : Byte) (s : State) : (writeDs j v s).trace = s.trace := rfl
@[simp] theorem writeDs_resetReq (j : Nat) (v : Byte) (s : State) : (writeDs j v s).resetReq = s.resetReq := rfl

/-! `hostSend` writes the command port and nothing else. -/

@[simp] theorem hostSend_cfg (bs : List Byte) (s : State) : (hostSend bs s).cfg = s.cfg := rfl
@[simp] theorem hostSend_ds (bs : List Byte) (s : State) : (hostSend bs s).ds = s.ds := rfl
@[simp] theorem hostSend_digitSlots (bs : List Byte) (s : State) : (hostSend bs s).digitSlots = s.digitSlots := rfl
@[simp] theorem hostSend_segSlots (bs : List Byte) (s : State) : (hostSend bs s).segSlots = s.segSlots := rfl
@[simp] theorem hostSend_constructed (bs : List Byte) (s : State) : (hostSend bs s).constructed = s.constructed := rfl
@[simp] theorem hostSend_seq (bs : List Byte) (s : State) : (hostSend bs s).seq = s.seq := rfl
@[simp] theorem hostSend_dw (bs : List Byte) (s : State) : (hostSend bs s).dw = s.dw := rfl
@[simp] theorem hostSend_cmd (bs : List Byte) (s : State) : (hostSend bs s).cmd = s.cmd ++ bs := rfl
@[simp] theorem hostSend_trace (bs : List Byte) (s : State) : (hostSend bs s).trace = s.trace := rfl
@[simp] theorem hostSend_resetReq (bs : List Byte) (s : State) : (hostSend bs s).resetReq = s.resetReq := rfl

/-! `hostReset` writes the reset input and nothing else. -/

@[simp] theorem hostReset_cfg (s : State) : (hostReset s).cfg = s.cfg := rfl
@[simp] theorem hostReset_ds (s : State) : (hostReset s).ds = s.ds := rfl
@[simp] theorem hostReset_digitSlots (s : State) : (hostReset s).digitSlots = s.digitSlots := rfl
@[simp] theorem hostReset_segSlots (s : State) : (hostReset s).segSlots = s.segSlots := rfl
@[simp] theorem hostReset_constructed (s : State) : (hostReset s).constructed = s.constructed := rfl
@[simp] theorem hostReset_seq (s : State) : (hostReset s).seq = s.seq := rfl
@[simp] theorem hostReset_dw (s : State) : (hostReset s).dw = s.dw := rfl
@[simp] theorem hostReset_cmd (s : State) : (hostReset s).cmd = s.cmd := rfl
@[simp] theorem hostReset_trace (s : State) : (hostReset s).trace = s.trace := rfl
@[simp] theorem hostReset_resetReq (s : State) : (hostReset s).resetReq = true := rfl

/-! `placeCommand` writes the command port, the sequencer and the reset input and nothing else. -/

@[simp] theorem placeCommand_cfg (bs : List Byte) (s : State) : (placeCommand bs s).cfg = s.cfg := rfl
@[simp] theorem placeCommand_ds (bs : List Byte) (s : State) : (placeCommand bs s).ds = s.ds := rfl
@[simp] theorem placeCommand_digitSlots (bs : List Byte) (s : State) : (placeCommand bs s).digitSlots = s.digitSlots := rfl
@[simp] theorem placeCommand_segSlots (bs : List Byte) (s : State) : (placeCommand bs s).segSlots = s.segSlots := rfl
@[simp] theorem placeCommand_constructed (bs : List Byte) (s : State) : (placeCommand bs s).constructed = s.constructed := rfl
@[simp] theorem placeCommand_seq (bs : List Byte) (s : State) : (placeCommand bs s).seq = .idle := rfl
@[simp] theorem placeCommand_dw (bs : List Byte) (s : State) : (placeCommand bs s).dw = s.dw := rfl
@[simp] theorem placeCommand_cmd (bs : List Byte) (s : State) : (placeCommand bs s).cmd = bs ++ s.cmd := rfl
@[simp] theorem placeCommand_trace (bs : List Byte) (s : State) : (placeCommand bs s).trace = s.trace := rfl
@[simp] theorem placeCommand_resetReq (bs : List Byte) (s : State) : (placeCommand bs s).resetReq = false := rfl

/-! `construct` writes the registers of CONFIG and nothing else. -/

@[simp] theorem construct_cfg (dp sp : List Pin) (s : State) : (construct dp sp s).cfg = s.cfg := rfl
@[simp] theorem construct_ds (dp sp : List Pin) (s : State) : (construct dp sp s).ds = List.replicate s.cfg.numDigits (decodeSymbol s.cfg emptySymbol) := rfl
@[simp] theorem construct_digitSlots (dp sp : List Pin) (s : State) : (construct dp sp s).digitSlots = fillSlots s.digitSlots (dp.take (digitCount s.cfg dp)) := rfl
@[simp] theorem construct_segSlots (dp sp : List Pin) (s : State) : (construct dp sp s).segSlots = fillSlots s.segSlots (sp.take (segCount sp)) := rfl
@[simp] theorem construct_constructed (dp sp : List Pin) (s : State) : (construct dp sp s).constructed = true := rfl
@[simp] theorem construct_seq (dp sp : List Pin) (s : State) : (construct dp sp s).seq = s.seq := rfl
@[simp] theorem construct_dw (dp sp : List Pin) (s : State) : (construct dp sp s).dw = s.dw := rfl
@[simp] theorem construct_cmd (dp sp : List Pin) (s : State) : (construct dp sp s).cmd = s.cmd := rfl
@[simp] theorem construct_trace (dp sp : List Pin) (s : State) : (construct dp sp s).trace = s.trace := rfl
@[simp] theorem construct_resetReq (dp sp : List Pin) (s : State) : (construct dp sp s).resetReq = s.resetReq := rfl

end Sys2Proof.Machine
end

