-- ==== Sys2Proof/Laws/Slots.lean ====
section
/-!
SUPPORT. What the slot operations do, said once: the least assigned slot (spec R85), the assigned slots in order (R83), the
filling of a slot array by CONFIG (R72), the guarded read of a pin (R24).
-/
namespace Sys2Proof.Machine

/-- A slot is assigned exactly when its index is in the array and its valid bit is 1. -/
theorem isAssigned_iff {slots : List Slot} {k : Nat} :
    isAssigned slots k = true ↔ ∃ p, slots[k]? = some ⟨true, p⟩ := by
  unfold isAssigned
  rcases h : slots[k]? with _ | ⟨v, p⟩ <;> simp

theorem withPin_assigned {slots : List Slot} {k : Nat} {p : Pin} (f : Pin → Out)
    (h : slots[k]? = some ⟨true, p⟩) : withPin slots k f = f p := by
  simp [withPin, h]

/-- The guarded read of a pin answers a next state only through an assigned slot. -/
theorem withPin_next {slots : List Slot} {k : Nat} {f : Pin → Out} {t : State}
    (h : withPin slots k f = .next t) : ∃ p, slots[k]? = some ⟨true, p⟩ ∧ f p = .next t := by
  unfold withPin at h
  rcases hs : slots[k]? with _ | ⟨v, p⟩
  · simp [hs] at h
  · cases v
    · simp [hs] at h
    · exact ⟨p, rfl, by simpa [hs] using h⟩

/-- The guarded read never refuses by itself. -/
theorem withPin_refused {slots : List Slot} {k : Nat} {f : Pin → Out} {r : Refusal}
    (h : withPin slots k f = .refused r) : ∃ p, f p = .refused r := by
  unfold withPin at h
  rcases hs : slots[k]? with _ | ⟨v, p⟩
  · simp [hs] at h
  · cases v
    · simp [hs] at h
    · exact ⟨p, by simpa [hs] using h⟩

/-- Membership in the assigned slots from index `n` on. -/
theorem mem_assignedFrom {slots : List Slot} : ∀ {n : Nat} {g : Nat × Pin},
    g ∈ assignedFrom n slots ↔ n ≤ g.1 ∧ slots[g.1 - n]? = some ⟨true, g.2⟩ := by
  induction slots with
  | nil => simp [assignedFrom]
  | cons sl sls ih =>
    rintro n ⟨k, p⟩
    have hk : n + 1 ≤ k → k - n = (k - (n + 1)) + 1 := by omega
    obtain ⟨v, q⟩ := sl
    rcases Nat.lt_trichotomy k n with h | rfl | h
    · cases v <;> simp [assignedFrom, ih] <;> omega
    · cases v <;> simp [assignedFrom, ih, eq_comm]
    · have h1 : n + 1 ≤ k := h
      have h2 : n ≤ k := by omega
      cases v <;> simp [assignedFrom, ih, hk h1, h1, h2]
      omega

theorem mem_assignedSlots {slots : List Slot} {g : Nat × Pin} :
    g ∈ assignedSlots slots ↔ slots[g.1]? = some ⟨true, g.2⟩ := by
  simp [assignedSlots, mem_assignedFrom]

/-- What `nextSeg` and `nextDig` answer (R85), beside the list of the assigned slots from `k` on: none, or its head. -/
theorem firstAssigned_cases {slots : List Slot} : ∀ (n : Nat),
    (firstAssigned slots n = none ∧ assignedFrom n slots = []) ∨
    ∃ m p, n ≤ m ∧ firstAssigned slots n = some m ∧ slots[m - n]? = some ⟨true, p⟩ ∧
      assignedFrom n slots = (m, p) :: assignedFrom (m + 1) (slots.drop (m + 1 - n)) := by
  induction slots with
  | nil => simp [firstAssigned, assignedFrom]
  | cons sl sls ih =>
    intro n
    obtain ⟨v, q⟩ := sl
    cases v with
    | true => exact .inr ⟨n, q, le_refl n, by simp [firstAssigned, assignedFrom]⟩
    | false =>
      rcases ih (n + 1) with ⟨h1, h2⟩ | ⟨m, p, hm, h1, h2, h3⟩
      · exact .inl (by simp [firstAssigned, assignedFrom, h1, h2])
      · refine .inr ⟨m, p, by omega, by simpa [firstAssigned] using h1, ?_, ?_⟩
        · rw [show m - n = (m - (n + 1)) + 1 by omega]; simpa using h2
        · rw [show m + 1 - n = (m + 1 - (n + 1)) + 1 by omega]; simpa [assignedFrom] using h3

/-- The assigned slots at or above index `k`. -/
def assignedAbove (slots : List Slot) (k : Nat) : List (Nat × Pin) := assignedFrom k (slots.drop k)

theorem assignedAbove_zero (slots : List Slot) : assignedAbove slots 0 = assignedSlots slots := rfl

theorem mem_assignedAbove {slots : List Slot} {k : Nat} {g : Nat × Pin} :
    g ∈ assignedAbove slots k ↔ k ≤ g.1 ∧ g ∈ assignedSlots slots := by
  rw [assignedAbove, mem_assignedFrom, mem_assignedSlots, List.getElem?_drop]
  refine and_congr_right fun h => ?_
  rw [show k + (g.1 - k) = g.1 by omega]

/-- The next assigned slot (R85): none at or above `k`, or the head of the assigned slots above `k`. -/
theorem nextAssigned_cases (slots : List Slot) (k : Nat) :
    (nextAssigned slots k = none ∧ assignedAbove slots k = []) ∨
    ∃ m p, k ≤ m ∧ nextAssigned slots k = some m ∧ slots[m]? = some ⟨true, p⟩ ∧
      assignedAbove slots k = (m, p) :: assignedAbove slots (m + 1) := by
  rcases firstAssigned_cases (slots := slots.drop k) k with h | ⟨m, p, hm, h1, h2, h3⟩
  · exact .inl h
  · refine .inr ⟨m, p, hm, h1, ?_, ?_⟩
    · rw [List.getElem?_drop, show k + (m - k) = m by omega] at h2; exact h2
    · rw [assignedAbove, h3, assignedAbove, List.drop_drop, show k + (m + 1 - k) = m + 1 by omega]

/-- Below the bound every assigned slot has been passed when there is no next one. -/
theorem lt_of_nextAssigned_none {slots : List Slot} {k : Nat} (h : nextAssigned slots k = none) :
    ∀ g ∈ assignedSlots slots, g.1 < k := by
  intro g hg
  rcases nextAssigned_cases slots k with ⟨_, h2⟩ | ⟨m, p, _, h1, _⟩
  · by_contra hk
    have hm : g ∈ assignedAbove slots k := mem_assignedAbove.mpr ⟨by omega, hg⟩
    simp [h2] at hm
  · simp [h] at h1

/-- The next assigned slot is assigned, and no assigned slot lies between. -/
theorem nextAssigned_some {slots : List Slot} {k m : Nat} (h : nextAssigned slots k = some m) :
    k ≤ m ∧ isAssigned slots m = true ∧ ∀ g ∈ assignedSlots slots, g.1 < m → g.1 < k := by
  rcases nextAssigned_cases slots k with ⟨h1, _⟩ | ⟨m', p, hk, h1, h2, h3⟩
  · simp [h] at h1
  · obtain rfl : m' = m := by simpa [h1] using h
    refine ⟨hk, isAssigned_iff.mpr ⟨p, h2⟩, fun g hg hlt => ?_⟩
    by_contra hc
    have hm : g ∈ assignedAbove slots k := mem_assignedAbove.mpr ⟨by omega, hg⟩
    rw [h3] at hm
    rcases List.mem_cons.mp hm with rfl | hm
    · simp at hlt
    · have := (mem_assignedAbove.mp hm).1; omega

/-- The assigned slots stand in ascending order. -/
theorem assignedFrom_ascending (slots : List Slot) : ∀ n,
    (assignedFrom n slots).Pairwise (fun a b => a.1 < b.1) := by
  induction slots with
  | nil => intro n; simp [assignedFrom]
  | cons sl sls ih =>
    intro n
    simp only [assignedFrom]
    split
    · refine List.pairwise_cons.mpr ⟨fun g hg => ?_, ih _⟩
      have := (mem_assignedFrom.mp hg).1
      show n < g.1
      omega
    · exact ih _

/-- An array with no valid bit set has no assigned slot. -/
theorem assignedFrom_eq_nil {slots : List Slot} (h : ∀ sl ∈ slots, sl.valid = false) : ∀ n,
    assignedFrom n slots = [] := by
  induction slots with
  | nil => intro n; rfl
  | cons sl sls ih =>
    intro n
    rw [assignedFrom, if_neg (by simp [h sl (by simp)])]
    exact ih (fun x hx => h x (by simp [hx])) _

/-- A CONFIG leaves each slot array as long as it was. -/
@[simp] theorem fillSlots_length (slots : List Slot) : ∀ pins, (fillSlots slots pins).length = slots.length := by
  induction slots with
  | nil => simp [fillSlots]
  | cons sl sls ih => intro pins; cases pins <;> simp [fillSlots, ih]

/-- Slot k after a CONFIG (R72): the k-th supplied pin, or unassigned when there is none. -/
theorem fillSlots_getElem? (slots : List Slot) : ∀ (pins : List Pin) (k : Nat), (fillSlots slots pins)[k]? =
    match slots[k]?, pins[k]? with
    | none, _ => none
    | some _, some p => some ⟨true, p⟩
    | some sl, none => some ⟨false, sl.pin⟩ := by
  induction slots with
  | nil => simp [fillSlots]
  | cons sl sls ih =>
    intro pins k
    cases pins <;> cases k <;> simp [fillSlots, ih]

/-- The assigned slots after a CONFIG hold supplied pins, each at its own index (R72). -/
theorem mem_assignedSlots_fillSlots {slots : List Slot} {pins : List Pin} {g : Nat × Pin}
    (h : g ∈ assignedSlots (fillSlots slots pins)) : pins[g.1]? = some g.2 := by
  rw [mem_assignedSlots, fillSlots_getElem?] at h
  rcases h1 : slots[g.1]? with _ | sl <;> rcases h2 : pins[g.1]? with _ | p <;> simp [h1, h2] at h ⊢
  exact h

end Sys2Proof.Machine
end

