-- ==== Sys2Proof/Laws/Step.lean ====
section
/-!
SUPPORT. What the shared operations and one step can do, said once: the setters' body (spec R78), the commands' meanings,
the decoder's operand forms, the sequencer's moves (R86 to R90, R73) and the cases of a step. Proofs cite these and do not
unfold `step` or `exec`.
-/
namespace Sys2Proof.Machine

/-! The setters. -/

theorem symbolOperand_eq_some {b : Byte} {sym : Symbol} : symbolOperand b = some sym ↔ b.toNat = sym.val := by
  unfold symbolOperand
  split
  · simp [Fin.ext_iff]
  · constructor
    · simp
    · intro h; have := sym.isLt; omega

theorem symbolOperand_eq_none {b : Byte} : symbolOperand b = none ↔ 17 < b.toNat := by
  unfold symbolOperand
  split <;> simp <;> omega

/-- The setter's body: a write of one ROM entry, or nothing (R78). -/
theorem setDigit_cases (k : Nat) (y : Byte) (s : State) :
    (∃ sym, k < s.cfg.numDigits ∧ symbolOperand y = some sym ∧
      setDigit k y s = writeDs k (decodeSymbol s.cfg sym) s) ∨
    ((s.cfg.numDigits ≤ k ∨ symbolOperand y = none) ∧ setDigit k y s = s) := by
  unfold setDigit positionInRange
  by_cases hk : k < s.cfg.numDigits
  · rcases hy : symbolOperand y with _ | sym
    · exact .inr ⟨.inr rfl, by simp [hk]⟩
    · exact .inl ⟨sym, hk, rfl, by simp [hk]⟩
  · exact .inr ⟨.inl (by omega), by simp [hk]⟩

/-- A setter changes the Display State alone. -/
theorem setDigit_frame (k : Nat) (y : Byte) (s : State) :
    setDigit k y s = { s with ds := (setDigit k y s).ds } := by
  rcases setDigit_cases k y s with ⟨_, _, _, h⟩ | ⟨_, h⟩
  · rw [h]; rfl
  · rw [h]

theorem setDigit_ds_length (k : Nat) (y : Byte) (s : State) : (setDigit k y s).ds.length = s.ds.length := by
  rcases setDigit_cases k y s with ⟨_, _, _, h⟩ | ⟨_, h⟩ <;> simp [h]

@[simp] theorem setDigit_cfg (k : Nat) (y : Byte) (s : State) : (setDigit k y s).cfg = s.cfg := by
  rw [setDigit_frame]

theorem setDigitsFrom_frame (ys : List Byte) : ∀ (k : Nat) (s : State),
    setDigitsFrom k ys s = { s with ds := (setDigitsFrom k ys s).ds } := by
  induction ys with
  | nil => intros; rfl
  | cons y ys ih => intro k s; simp only [setDigitsFrom]; rw [ih, setDigit_frame]

theorem setDigitsFrom_ds_length (ys : List Byte) : ∀ (k : Nat) (s : State),
    (setDigitsFrom k ys s).ds.length = s.ds.length := by
  induction ys with
  | nil => intros; rfl
  | cons y ys ih => intro k s; rw [setDigitsFrom, ih, setDigit_ds_length]

@[simp] theorem setDigitsFrom_cfg (k : Nat) (ys : List Byte) (s : State) : (setDigitsFrom k ys s).cfg = s.cfg := by
  rw [setDigitsFrom_frame]

/-- Whatever a setter leaves in the Display State was there before or is a ROM entry (R18). -/
theorem mem_setDigit_ds {k : Nat} {y b : Byte} {s : State} (h : b ∈ (setDigit k y s).ds) :
    b ∈ s.ds ∨ ∃ sym, b = decodeSymbol s.cfg sym := by
  rcases setDigit_cases k y s with ⟨sym, _, _, e⟩ | ⟨_, e⟩ <;> rw [e] at h
  · exact (List.mem_or_eq_of_mem_set h).imp_right fun e => ⟨sym, e⟩
  · exact .inl h

theorem mem_setDigitsFrom_ds {b : Byte} (ys : List Byte) : ∀ (k : Nat) (s : State),
    b ∈ (setDigitsFrom k ys s).ds → b ∈ s.ds ∨ ∃ sym, b = decodeSymbol s.cfg sym := by
  induction ys with
  | nil => intro _ _ h; exact .inl h
  | cons y ys ih =>
    intro k s h
    rcases ih _ _ h with h | h
    · exact mem_setDigit_ds h
    · exact .inr (by simpa using h)

/-- Entry j after the setter's body (R78). -/
theorem setDigit_getElem? (k : Nat) (y : Byte) (s : State) (hl : s.ds.length = s.cfg.numDigits) (j : Nat) :
    (setDigit k y s).ds[j]? = if k = j ∧ j < s.cfg.numDigits then
      (match symbolOperand y with | some sym => some (decodeSymbol s.cfg sym) | none => s.ds[j]?)
    else s.ds[j]? := by
  rcases setDigit_cases k y s with ⟨sym, h1, h2, h3⟩ | ⟨h1, h3⟩
  · rw [h3, h2, writeDs_ds, List.getElem?_set]
    by_cases hj : k = j
    · subst hj; simp [h1, hl]
    · simp [hj]
  · rw [h3]
    by_cases hj : k = j
    · subst hj
      rcases h1 with h1 | h1
      · simp; intro h; omega
      · simp [h1]
    · simp [hj]

/-- Entry j after the loop of SETDS from position k on (R79, R80). -/
theorem setDigitsFrom_getElem? (ys : List Byte) : ∀ (k : Nat) (s : State), s.ds.length = s.cfg.numDigits → ∀ j,
    (setDigitsFrom k ys s).ds[j]? = if k ≤ j ∧ j < s.cfg.numDigits then
      (match (ys[j - k]?).bind symbolOperand with
        | some sym => some (decodeSymbol s.cfg sym)
        | none => s.ds[j]?)
    else s.ds[j]? := by
  induction ys with
  | nil => intro k s _ j; simp [setDigitsFrom]
  | cons y ys ih =>
    intro k s hl j
    rw [setDigitsFrom, ih _ _ (by rw [setDigit_ds_length, setDigit_cfg, hl]), setDigit_getElem? _ _ _ hl, setDigit_cfg]
    rcases Nat.lt_trichotomy j k with h | rfl | h
    · simp [show ¬ k + 1 ≤ j by omega, show ¬ k ≤ j by omega, show ¬ k = j by omega]
    · simp
    · rw [show j - k = (j - (k + 1)) + 1 by omega]
      simp [show k + 1 ≤ j by omega, show k ≤ j by omega, show ¬ k = j by omega]

/-- What a command of an instance, whole, does to `DS` (R81): one entry per position it writes, no other. -/
theorem commandResult_getElem? {i : Instr} (hn : ∀ dpins spins, i ≠ .config dpins spins) {s : State}
    (hl : s.ds.length = s.cfg.numDigits) {j : Nat} (hj : j < s.cfg.numDigits) :
    (commandResult i s).ds[j]? =
      match symbolWritten s.cfg j i with
      | some sym => some (decodeSymbol s.cfg sym)
      | none => s.ds[j]? := by
  cases i with
  | config dpins spins => exact absurd rfl (hn dpins spins)
  | setd position symbol =>
    rw [commandResult, setDigit_getElem? _ _ _ hl]
    by_cases h : position.toNat = j <;> simp [symbolWritten, h, hj]
  | setds symbols =>
    rw [commandResult, setDigitsFrom_getElem? _ _ _ hl]
    simp [symbolWritten, hj]
  | refresh dwell => rfl

/-- A command of an instance, whole, keeps the parameters, the instance and the size of `DS`. -/
theorem commandResult_frame {i : Instr} (hn : ∀ dpins spins, i ≠ .config dpins spins) (s : State) :
    (commandResult i s).cfg = s.cfg ∧ (commandResult i s).constructed = s.constructed ∧
      (commandResult i s).ds.length = s.ds.length := by
  cases i with
  | config dpins spins => exact absurd rfl (hn dpins spins)
  | setd position symbol => exact ⟨by simp [commandResult], by rw [commandResult, setDigit_frame], setDigit_ds_length _ _ _⟩
  | setds symbols => exact ⟨by simp [commandResult], by rw [commandResult, setDigitsFrom_frame], setDigitsFrom_ds_length _ _ _⟩
  | refresh dwell => exact ⟨rfl, rfl, rfl⟩

/-- `exec` of a SETD or a SETDS is the whole command (R77, R79; log entry 11). -/
theorem exec_setter {i : Instr} (hn : ∀ dpins spins, i ≠ .config dpins spins) (hr : ∀ dwell, i ≠ .refresh dwell) {s : State}
    (hc : s.constructed = true) : exec i s = .next (commandResult i s) := by
  cases i with
  | config dpins spins => exact absurd rfl (hn dpins spins)
  | setd position symbol => simp only [exec, execSetd, whenConstructed, hc, if_true, commandResult]
  | setds symbols => simp only [exec, execSetds, whenConstructed, hc, if_true, commandResult]
  | refresh dwell => exact absurd rfl (hr dwell)

/-- The bytes on the command port make no difference to the setters. -/
theorem setDigit_withCmd (k : Nat) (y : Byte) (bs : List Byte) (s : State) :
    setDigit k y (withCmd bs s) = withCmd bs (setDigit k y s) := by
  unfold setDigit
  by_cases h : positionInRange s.cfg k = true
  · simp only [withCmd_cfg, h, if_true]; cases symbolOperand y <;> rfl
  · simp [h]

theorem setDigitsFrom_withCmd (ys : List Byte) (bs : List Byte) : ∀ (k : Nat) (s : State),
    setDigitsFrom k ys (withCmd bs s) = withCmd bs (setDigitsFrom k ys s) := by
  induction ys with
  | nil => intros; rfl
  | cons y ys ih => intro k s; simp only [setDigitsFrom, setDigit_withCmd, ih]

/-! The commands. -/

/-- What each command answers as a next state. -/
theorem exec_next {i : Instr} {s t : State} (h : exec i s = .next t) :
    (∃ dpins spins, i = .config dpins spins ∧ s.constructed = false ∧
      t = goto (configSeq 0 (configPins s.cfg dpins spins)) (construct dpins spins s)) ∨
    (∃ position symbol, i = .setd position symbol ∧ s.constructed = true ∧ t = setDigit position.toNat symbol s) ∨
    (∃ symbols, i = .setds symbols ∧ s.constructed = true ∧ t = setDigitsFrom 0 symbols s) ∨
    (∃ dwell, i = .refresh dwell ∧ s.constructed = true ∧ t = goto (segSeq s 0) (latchDwell dwell s)) := by
  cases hc : s.constructed <;> cases i <;>
    simp_all [exec, execConfig, execSetd, execSetds, execRefresh, whenConstructed, whenNotConstructed]

/-- A command answers a next state exactly when its precondition on `constructed` holds (R99). -/
theorem exec_accepted {i : Instr} {s : State} (h : accepts i s = true) : ∃ t, exec i s = .next t := by
  cases hc : s.constructed <;> cases i <;>
    simp_all [accepts, exec, execConfig, execSetd, execSetds, execRefresh, whenConstructed, whenNotConstructed]

/-- A command that is not accepted is refused, by one of two names (R99). -/
theorem exec_not_accepted {i : Instr} {s : State} (h : accepts i s = false) :
    exec i s = .refused (if s.constructed then .alreadyConstructed else .notConstructed) := by
  cases hc : s.constructed <;> cases i <;>
    simp_all [accepts, exec, execConfig, execSetd, execSetds, execRefresh, whenConstructed, whenNotConstructed]

/-! The pattern bit and the reset. -/

/-- A pattern bit exists exactly below bit 8 of an entry of the array (R35, R47). -/
theorem readDsBit_eq_some {s : State} {j i : Nat} {bit : Bool} :
    readDsBit s j i = some bit ↔ i < 8 ∧ ∃ b, s.ds[j]? = some b ∧ b.getLsbD i = bit := by
  unfold readDsBit
  split <;> simp [*]

/-- A reset answers a next state only in `IDLE` (R124). -/
theorem takeReset_next {s t : State} (h : takeReset s = .next t) :
    s.seq = .idle ∧ t = withCmd s.cmd (State.resetWith s.cfg) := by
  unfold takeReset at h
  split at h
  · rename_i hq
    exact ⟨hq, by simpa using h.symm⟩
  · simp at h

/-! The sequencer. -/

/-- One event and the `seq` value after it, from a `seq` value other than `IDLE` (R73, R86 to R90). -/
inductive Moves (s : State) : Event → Seq → Prop where
  | cfg {k pins p} (h : s.seq = .cfg k pins) (hp : pins[k]? = some p) :
      Moves s (.cfgOut p) (configSeq (k + 1) pins)
  | segOn {i p} (h : s.seq = .segOn i) (hp : s.segSlots[i]? = some ⟨true, p⟩) :
      Moves s (.setOut p .high) (driveSeq s i 0)
  | drive {i j p bit} (h : s.seq = .drive i j) (hp : s.digitSlots[j]? = some ⟨true, p⟩)
      (hb : readDsBit s j i = some bit) : Moves s (.setOut p (driveLevel bit)) (driveSeq s i (j + 1))
  | wait {i} (h : s.seq = .wait i) : Moves s (.wait s.dw) (offSeq s i 0)
  | off {i j p} (h : s.seq = .off i j) (hp : s.digitSlots[j]? = some ⟨true, p⟩) :
      Moves s (.setOut p .high) (offSeq s i (j + 1))
  | segOff {i p} (h : s.seq = .segOff i) (hp : s.segSlots[i]? = some ⟨true, p⟩) :
      Moves s (.setOut p .low) (segSeq s (i + 1))

/-- A move is the step taken. -/
theorem step_of_moves {s : State} {e : Event} {q : Seq} (hr : s.resetReq = false) (h : Moves s e q) :
    step s = .next (goto q (emit e s)) := by
  cases h with
  | cfg h hp => simp [step, stepWith, hr, sequencerStep, h, seqCfg, hp]
  | segOn h hp => simp [step, stepWith, hr, sequencerStep, h, seqSegOn, withPin_assigned _ hp]
  | drive h hp hb => simp [step, stepWith, hr, sequencerStep, h, seqDrive, withPin_assigned _ hp, hb]
  | wait h => simp [step, stepWith, hr, sequencerStep, h, seqWait]
  | off h hp => simp [step, stepWith, hr, sequencerStep, h, seqOff, withPin_assigned _ hp]
  | segOff h hp => simp [step, stepWith, hr, sequencerStep, h, seqSegOff, withPin_assigned _ hp]

/-- Everything one step can do when it answers a next state. -/
theorem step_cases {s t : State} (h : step s = .next t) :
    (s.resetReq = true ∧ s.seq = .idle ∧ t = withCmd s.cmd (State.resetWith s.cfg)) ∨
    (s.resetReq = false ∧ s.seq = .idle ∧ ∃ i rest, decode s.cfg s.cmd = .command i rest ∧
      exec i (withCmd rest s) = .next t) ∨
    (s.resetReq = false ∧ s.seq = .idle ∧ decode s.cfg s.cmd = .incomplete ∧ t = s) ∨
    (s.resetReq = false ∧ s.seq ≠ .idle ∧ ∃ e q, Moves s e q ∧ t = goto q (emit e s)) := by
  rcases Bool.eq_false_or_eq_true s.resetReq with hr | hr
  · refine .inl ⟨hr, ?_⟩
    simp only [step, stepWith, hr, if_true] at h
    exact takeReset_next h
  · right
    simp only [step, stepWith, hr, Bool.false_eq_true, if_false, sequencerStep] at h
    obtain ⟨q, hq⟩ : ∃ q, s.seq = q := ⟨_, rfl⟩
    rw [hq] at h
    cases q with
    | idle =>
      simp only [acceptCommand] at h
      obtain ⟨d, hd⟩ : ∃ d, decode s.cfg s.cmd = d := ⟨_, rfl⟩
      rw [hd] at h
      rcases d with ⟨i, rest⟩ | b | _
      · exact .inl ⟨hr, hq, i, rest, hd, h⟩
      · simp at h
      · simp only [Host.Outcome.next.injEq] at h; exact .inr (.inl ⟨hr, hq, hd, h.symm⟩)
    | cfg k pins =>
      simp only [seqCfg] at h
      rcases hp : pins[k]? with _ | p
      · simp [hp] at h
      · simp only [hp, Host.Outcome.next.injEq] at h
        exact .inr (.inr ⟨hr, by simp [hq], _, _, .cfg hq hp, h.symm⟩)
    | segOn i =>
      obtain ⟨p, hp, h⟩ := withPin_next h
      exact .inr (.inr ⟨hr, by simp [hq], _, _, .segOn hq hp, by simpa using h.symm⟩)
    | drive i j =>
      obtain ⟨p, hp, h⟩ := withPin_next h
      rcases hb : readDsBit s j i with _ | bit
      · simp [hb] at h
      · exact .inr (.inr ⟨hr, by simp [hq], _, _, .drive hq hp hb, by simpa [hb] using h.symm⟩)
    | wait i =>
      simp only [seqWait, Host.Outcome.next.injEq] at h
      exact .inr (.inr ⟨hr, by simp [hq], _, _, .wait hq, h.symm⟩)
    | off i j =>
      obtain ⟨p, hp, h⟩ := withPin_next h
      exact .inr (.inr ⟨hr, by simp [hq], _, _, .off hq hp, by simpa using h.symm⟩)
    | segOff i =>
      obtain ⟨p, hp, h⟩ := withPin_next h
      exact .inr (.inr ⟨hr, by simp [hq], _, _, .segOff hq hp, by simpa using h.symm⟩)

/-- In `IDLE` with no reset asserted a step accepts the decoded command. -/
theorem step_accept {s : State} {i : Instr} {rest : List Byte} (hr : s.resetReq = false) (hq : s.seq = .idle)
    (hd : decode s.cfg s.cmd = .command i rest) : step s = exec i (withCmd rest s) := by
  simp [step, stepWith, hr, sequencerStep, hq, acceptCommand, hd]

/-- With an incomplete or absent command the block waits. -/
theorem step_wait {s : State} (hr : s.resetReq = false) (hq : s.seq = .idle)
    (hd : decode s.cfg s.cmd = .incomplete) : step s = .next s := by
  simp [step, stepWith, hr, sequencerStep, hq, acceptCommand, hd]

theorem run_succ {n : Nat} {s t : State} (h : step s = .next t) : run (n + 1) s = run n t := by
  simp [run, h]

theorem run_add {n m : Nat} : ∀ {s t : State}, run n s = .next t → run (n + m) s = run m t := by
  induction n with
  | zero => intro s t h; simp only [run, Host.Outcome.next.injEq] at h; simp [h]
  | succ n ih =>
    intro s t h
    rcases hs : step s with u | f | r
    · rw [show n + 1 + m = (n + m) + 1 by omega, run_succ hs]; rw [run_succ hs] at h; exact ih h
    · simp [run, hs] at h
    · simp [run, hs] at h

/-! The line view. -/

theorem lineFrom_append (x : Option Level) (t u : List Event) (p : Pin) :
    lineFrom x (t ++ u) p = lineFrom (lineFrom x t p) u p := by
  simp [lineFrom]

/-- The line view after one more event (R12). -/
theorem line_append (t u : List Event) (p : Pin) : line (t ++ u) p = lineFrom (line t p) u p :=
  lineFrom_append none t u p

/-- Events that do not drive a line leave it (R12). -/
theorem lineFrom_of_not_mem {es : List Event} {p : Pin} (h : ∀ l, Event.setOut p l ∉ es) (x : Option Level) :
    lineFrom x es p = x := by
  induction es generalizing x with
  | nil => rfl
  | cons e es ih =>
    have h1 : lineAfter p x e = x := by
      cases e with
      | cfgOut => rfl
      | setOut q l =>
        refine if_neg ?_
        rintro rfl
        exact h l (by simp)
      | wait => rfl
    show lineFrom (lineAfter p x e) es p = x
    rw [h1]
    exact ih (fun l hl => h l (by simp [hl])) x

theorem line_emit (e : Event) (s : State) (p : Pin) : line (emit e s).trace p = lineAfter p (line s.trace p) e := by
  simp [line_append, lineFrom]

end Sys2Proof.Machine
end

