-- ==== Sys2Proof/Laws/Run.lean ====
section
/-!
SUPPORT. The phases of a running command as runs (spec R73, R86 to R90): from a sequencer state, so many steps emit such a list
of events, one a step, with every register kept. Each phase is one induction over the assigned slots still to come.
-/
namespace Sys2Proof.Machine

/-- `s` with events appended to its trace. -/
def emitAll (es : List Event) (s : State) : State := { s with trace := s.trace ++ es }

theorem emitAll_nil (s : State) : emitAll [] s = s := by simp [emitAll]

theorem emitAll_emitAll (a b : List Event) (s : State) : emitAll b (emitAll a s) = emitAll (a ++ b) s := by
  simp [emitAll]

theorem emitAll_goto (q : Seq) (b : List Event) (s : State) : emitAll b (goto q s) = goto q (emitAll b s) := rfl

theorem goto_goto (q r : Seq) (s : State) : goto q (goto r s) = goto q s := rfl

/-- From `u` the steps emit exactly `es`, one event a step, never in `IDLE` before the last, and end in `t`. -/
def Emits (u : State) (es : List Event) (t : State) : Prop :=
  run es.length u = .next t ∧
  ∀ m ≤ es.length, ∃ v, run m u = .next v ∧ v.trace = u.trace ++ es.take m ∧ (m < es.length → v.seq ≠ .idle)

theorem emits_nil (u : State) : Emits u [] u :=
  ⟨rfl, fun m hm => ⟨u, by obtain rfl : m = 0 := by simpa using hm
                           rfl, by simp, by simp⟩⟩

theorem emits_append {u v t : State} {a b : List Event} (h1 : Emits u a v) (h2 : Emits v b t) : Emits u (a ++ b) t := by
  obtain ⟨r1, m1⟩ := h1
  obtain ⟨r2, m2⟩ := h2
  have hv : v.trace = u.trace ++ a := by
    obtain ⟨w, hw1, hw2, _⟩ := m1 a.length le_rfl
    obtain rfl : v = w := by simpa [r1] using hw1
    simpa using hw2
  refine ⟨by rw [List.length_append, run_add r1, r2], fun m hm => ?_⟩
  by_cases h : m < a.length
  · obtain ⟨w, h3, h4, h5⟩ := m1 m (by omega)
    exact ⟨w, h3, by rw [h4, List.take_append_of_le_length (by omega)], fun _ => h5 h⟩
  · rw [List.length_append] at hm
    obtain ⟨w, h3, h4, h5⟩ := m2 (m - a.length) (by omega)
    refine ⟨w, ?_, ?_, fun hm' => h5 (by rw [List.length_append] at hm'; omega)⟩
    · rw [show m = a.length + (m - a.length) by omega, run_add r1, h3]
    · rw [h4, hv, List.take_append, List.take_of_length_le (by omega : a.length ≤ m), List.append_assoc]

/-- One move is one step that emits its event. -/
theorem emits_move {u : State} {e : Event} {q : Seq} (hr : u.resetReq = false) (hq : u.seq ≠ .idle)
    (h : Moves u e q) : Emits u [e] (goto q (emitAll [e] u)) := by
  have hs : step u = .next (goto q (emitAll [e] u)) := step_of_moves hr h
  refine ⟨by simp [run, hs], fun m hm => ?_⟩
  rcases Nat.le_one_iff_eq_zero_or_eq_one.mp (by simpa using hm) with rfl | rfl
  · exact ⟨u, rfl, by simp, fun _ => hq⟩
  · exact ⟨goto q (emitAll [e] u), by simp [run, hs], by simp [emitAll], by simp⟩

theorem seq_ne_idle {u : State} {q : Seq} (h : u.seq = q) (hq : q ≠ .idle) : u.seq ≠ .idle := h ▸ hq

/-- The `DRIVE` steps of window i from digit j on (R87). -/
theorem emits_drive (i : Nat) : ∀ (L : List (Nat × Pin)) (j : Nat) (u : State), assignedAbove u.digitSlots j = L →
    u.resetReq = false → u.seq = driveSeq u i j → (∀ d ∈ L, ∃ b, readDsBit u d.1 i = some b) →
    Emits u (L.map fun d => .setOut d.2 (lvl u i d.1))
      (goto (.wait i) (emitAll (L.map fun d => .setOut d.2 (lvl u i d.1)) u)) := by
  intro L
  induction L with
  | nil =>
    intro j u hL hr hq _
    rcases nextAssigned_cases u.digitSlots j with ⟨h1, _⟩ | ⟨m, p, _, _, _, h4⟩
    · have h : goto (.wait i) u = u := by simp only [driveSeq, h1] at hq; rw [← hq]; rfl
      rw [List.map_nil, emitAll_nil, h]
      exact emits_nil u
    · simp [hL] at h4
  | cons d L ih =>
    intro j u hL hr hq hb
    rcases nextAssigned_cases u.digitSlots j with ⟨_, h2⟩ | ⟨m, p, _, h2, h3, h4⟩
    · simp [hL] at h2
    · rw [hL] at h4
      obtain ⟨rfl, rfl⟩ := List.cons.inj h4
      rw [driveSeq, h2] at hq
      obtain ⟨b, hb1⟩ := hb _ (List.mem_cons_self)
      have s1 := emits_move hr (seq_ne_idle hq (by simp)) (.drive hq h3 hb1)
      rw [show driveLevel b = lvl u i m by simp [lvl, hb1]] at s1
      have s2 := emits_append s1 (ih (m + 1) (goto (driveSeq u i (m + 1)) (emitAll [.setOut p (lvl u i m)] u)) rfl hr rfl
        (fun d hd => hb d (List.mem_cons_of_mem _ hd)))
      rw [emitAll_goto, emitAll_emitAll, goto_goto] at s2
      exact s2

/-- The `OFF` steps of window i from digit j on (R89). -/
theorem emits_off (i : Nat) : ∀ (L : List (Nat × Pin)) (j : Nat) (u : State), assignedAbove u.digitSlots j = L →
    u.resetReq = false → u.seq = offSeq u i j →
    Emits u (L.map fun d => .setOut d.2 .high) (goto (.segOff i) (emitAll (L.map fun d => .setOut d.2 .high) u)) := by
  intro L
  induction L with
  | nil =>
    intro j u hL hr hq
    rcases nextAssigned_cases u.digitSlots j with ⟨h1, _⟩ | ⟨m, p, _, _, _, h4⟩
    · have h : goto (.segOff i) u = u := by simp only [offSeq, h1] at hq; rw [← hq]; rfl
      rw [List.map_nil, emitAll_nil, h]
      exact emits_nil u
    · simp [hL] at h4
  | cons d L ih =>
    intro j u hL hr hq
    rcases nextAssigned_cases u.digitSlots j with ⟨_, h2⟩ | ⟨m, p, _, h2, h3, h4⟩
    · simp [hL] at h2
    · rw [hL] at h4
      obtain ⟨rfl, rfl⟩ := List.cons.inj h4
      rw [offSeq, h2] at hq
      have s1 := emits_move hr (seq_ne_idle hq (by simp)) (.off hq h3)
      have s2 := emits_append s1 (ih (m + 1) (goto (offSeq u i (m + 1)) (emitAll [.setOut p .high] u)) rfl hr rfl)
      rw [emitAll_goto, emitAll_emitAll, goto_goto] at s2
      exact s2

/-- Every pattern bit the scan reads exists. -/
def Readable (u : State) : Prop :=
  ∀ d ∈ assignedSlots u.digitSlots, ∀ g ∈ assignedSlots u.segSlots, ∃ b, readDsBit u d.1 g.1 = some b

theorem readable_of_inv {s : State} (hi : Inv s) : Readable s := by
  intro d hd g hg
  have h1 := (List.getElem?_eq_some_iff.mp (mem_assignedSlots.mp hd)).1
  have h2 := (List.getElem?_eq_some_iff.mp (mem_assignedSlots.mp hg)).1
  rw [hi.digitLength, ← hi.dsLength] at h1
  rw [hi.segLength] at h2
  exact ⟨s.ds[d.1].getLsbD g.1, by simp [readDsBit, h1, h2]⟩

/-- A window up to its dwell (R86, R87). -/
theorem emits_open {u : State} {i : Nat} {p : Pin} (hr : u.resetReq = false) (hq : u.seq = .segOn i)
    (hp : u.segSlots[i]? = some ⟨true, p⟩) (hb : Readable u) :
    Emits u (.setOut p .high :: driveEvents u i) (goto (.wait i) (emitAll (.setOut p .high :: driveEvents u i) u)) := by
  have s1 := emits_append (emits_move hr (seq_ne_idle hq (by simp)) (.segOn hq hp))
    (emits_drive i _ 0 (goto (driveSeq u i 0) (emitAll [.setOut p .high] u)) rfl hr rfl
      (fun d hd => hb d hd (i, p) (mem_assignedSlots.mpr hp)))
  rw [emitAll_goto, emitAll_emitAll, goto_goto] at s1
  exact s1

/-- One window (R83, R86 to R90). -/
theorem emits_window {u : State} {i : Nat} {p : Pin} (hr : u.resetReq = false) (hq : u.seq = .segOn i)
    (hp : u.segSlots[i]? = some ⟨true, p⟩) (hb : Readable u) :
    Emits u (window u u.dw i p) (goto (segSeq u (i + 1)) (emitAll (window u u.dw i p) u)) := by
  have s1 := emits_open hr hq hp hb
  set v := goto (.wait i) (emitAll (.setOut p .high :: driveEvents u i) u) with hv
  have s2 := emits_move (u := v) hr (seq_ne_idle (q := .wait i) rfl (by simp)) (.wait rfl)
  set w := goto (offSeq v i 0) (emitAll [.wait v.dw] v) with hw
  have s3 := emits_off i _ 0 w rfl hr rfl
  have s4 := emits_move (u := goto (.segOff i) (emitAll ((assignedAbove w.digitSlots 0).map fun d => .setOut d.2 .high) w))
    hr (seq_ne_idle (q := .segOff i) rfl (by simp)) (.segOff rfl hp)
  have s5 := emits_append s1 (emits_append s2 (emits_append s3 s4))
  convert s5 using 1
  · simp [window, offEvents, hv, hw, emitAll, assignedAbove_zero]
  · simp [window, offEvents, hv, hw, emitAll, goto, assignedAbove_zero, segSeq]

/-- Some windows in a row, the first of those still to come (R83, R90). -/
theorem emits_windows : ∀ (L1 L2 : List (Nat × Pin)) (i : Nat) (u : State), assignedAbove u.segSlots i = L1 ++ L2 →
    u.resetReq = false → u.seq = segSeq u i → Readable u → ∃ i',
      Emits u (L1.flatMap fun g => window u u.dw g.1 g.2)
        (goto (segSeq u i') (emitAll (L1.flatMap fun g => window u u.dw g.1 g.2) u)) ∧
      assignedAbove u.segSlots i' = L2 := by
  intro L1
  induction L1 with
  | nil =>
    intro L2 i u hL hr hq hb
    have h : goto (segSeq u i) u = u := by rw [← hq]; rfl
    refine ⟨i, ?_, hL⟩
    rw [List.flatMap_nil, emitAll_nil, h]
    exact emits_nil u
  | cons g L1 ih =>
    intro L2 i u hL hr hq hb
    rcases nextAssigned_cases u.segSlots i with ⟨_, h2⟩ | ⟨m, p, _, h2, h3, h4⟩
    · simp [hL] at h2
    · rw [hL, List.cons_append] at h4
      obtain ⟨rfl, h5⟩ := List.cons.inj h4
      rw [segSeq, h2] at hq
      obtain ⟨i', s2, h6⟩ := ih L2 (m + 1) (goto (segSeq u (m + 1)) (emitAll (window u u.dw m p) u)) h5.symm hr rfl hb
      refine ⟨i', ?_, h6⟩
      have s1 := emits_append (emits_window hr hq h3 hb) s2
      rw [emitAll_goto, emitAll_emitAll, goto_goto] at s1
      exact s1

/-- The `CFG(k)` steps of a CONFIG from event k on (R73). -/
theorem emits_config (pins : List Pin) : ∀ (n k : Nat) (u : State), pins.length - k = n → u.resetReq = false →
    u.seq = configSeq k pins →
    Emits u ((pins.drop k).map Event.cfgOut) (goto .idle (emitAll ((pins.drop k).map Event.cfgOut) u)) := by
  intro n
  induction n with
  | zero =>
    intro k u hn hr hq
    have h : goto .idle u = u := by rw [configSeq, if_neg (by omega)] at hq; rw [← hq]; rfl
    rw [List.drop_eq_nil_of_le (by omega), List.map_nil, emitAll_nil, h]
    exact emits_nil u
  | succ n ih =>
    intro k u hn hr hq
    have hk : k < pins.length := by omega
    rw [configSeq, if_pos hk] at hq
    have s1 := emits_append (emits_move hr (seq_ne_idle hq (by simp)) (.cfg hq (List.getElem?_eq_getElem hk)))
      (ih (k + 1) (goto (configSeq (k + 1) pins) (emitAll [.cfgOut pins[k]] u)) (by omega) hr rfl)
    rw [emitAll_goto, emitAll_emitAll, goto_goto] at s1
    rw [List.drop_eq_getElem_cons hk]
    exact s1

end Sys2Proof.Machine
end

