-- ==== Sys2Proof/Tests/Slice0.lean ====
section
/-!
SUPPORT. The model's own tests: the WellFormed smoke, words written out from the spec's encodings, single steps from the
spec's vectors (95_test_vectors.md), and for every statement with hypotheses a witness that meets them all.
-/
namespace Sys2Proof.Tests
open Sys2Proof Sys2Proof.Machine

/-! WellFormed (R52, R54, R55): the checks refuse what they should, and take the last value in range. -/

theorem test_wf_refuses_256_digit_pins : (Instr.config (List.replicate 256 2#8) []).wf defaultConfig = false := by decide +kernel
theorem test_wf_refuses_256_segment_pins : (Instr.config [] (List.replicate 256 2#8)).wf defaultConfig = false := by decide +kernel
theorem test_wf_refuses_256_symbols : (Instr.setds (List.replicate 256 1#8)).wf defaultConfig = false := by decide +kernel
theorem test_wf_refuses_33_bit_dwell : (Instr.refresh (2 ^ 32)).wf defaultConfig = false := by decide
theorem test_wf_takes_255_pins : (Instr.config (List.replicate 255 2#8) (List.replicate 255 2#8)).wf defaultConfig = true := by
  decide +kernel
theorem test_wf_takes_largest_dwell : (Instr.refresh (2 ^ 32 - 1)).wf defaultConfig = true := by decide
theorem test_wf_takes_every_setd : (Instr.setd 255#8 99#8).wf defaultConfig = true := by decide

/-! Decoding, one word per format written out byte by byte (B5), and the opcode table's words. -/

theorem test_decode_config : decode defaultConfig [0x01#8, 0x01#8, 0x01#8, 0x09#8, 0x0A#8] =
    .command (.config [9#8] [10#8]) [] := by decide
theorem test_decode_setd_then_refresh : decode defaultConfig [0x02#8, 0x02#8, 0x07#8, 0x04#8, 0x00#8, 0x00#8, 0x00#8, 0x00#8] =
    .command (.setd 2#8 7#8) [0x04#8, 0x00#8, 0x00#8, 0x00#8, 0x00#8] := by decide
theorem test_decode_setds_empty : decode defaultConfig [0x03#8, 0x00#8] = .command (.setds []) [] := by decide
theorem test_decode_refresh_little_endian : decode defaultConfig [0x04#8, 0x00#8, 0x00#8, 0x01#8, 0x00#8] =
    .command (.refresh 65536) [] := by decide
theorem test_decode_refresh_8_bit_dwell : decode { defaultConfig with dwellBytes := 1 } [0x04#8, 0xFF#8] =
    .command (.refresh 255) [] := by decide
theorem test_decode_reserved : decode defaultConfig [0x00#8] = .reserved 0x00#8 ∧ decode defaultConfig [0xFF#8] = .reserved 0xFF#8 := by
  decide
theorem test_decode_incomplete : decode defaultConfig [0x02#8, 0x02#8] = .incomplete ∧
    decode defaultConfig [0x03#8, 0x04#8, 0x11#8, 0x04#8] = .incomplete ∧
    decode defaultConfig [0x01#8, 0x04#8, 0x07#8, 0x02#8, 0x03#8] = .incomplete := by decide
theorem test_encode_formats : encode defaultConfig (.setds [17#8, 4#8, 2#8, 17#8]) = [0x03#8, 0x04#8, 0x11#8, 0x04#8, 0x02#8, 0x11#8] ∧
    encode defaultConfig (.refresh 1000) = [0x04#8, 0xE8#8, 0x03#8, 0x00#8, 0x00#8] := by decide
theorem test_table_words : decodeTableWord 8 1 = some (.config [] []) ∧ decodeTableWord 8 2 = some (.setd 0#8 0#8) ∧
    decodeTableWord 8 3 = some (.setds []) ∧ decodeTableWord 8 4 = some (.refresh 0) ∧ decodeTableWord 8 5 = none := by decide
/-- `02 02 07`: the first byte is bits 7..0. -/
theorem test_table_word_setd : decodeTableWord 24 0x070202 = some (.setd 2#8 7#8) := by decide

/-! Small states. -/

/-- The next state of an answer, if it has one. -/
def nextOf : Out → Option State
  | .next t => some t
  | .fault _ => none
  | .refused _ => none

/-- The reason of a refusal, if the answer is one. -/
def refusalOf : Out → Option Refusal
  | .next _ => none
  | .fault _ => none
  | .refused r => some r

/-- A slot that holds the pin `p`. -/
def used (p : Pin) : Slot := ⟨true, p⟩

/-- An unassigned slot. -/
def unused : Slot := ⟨false, 0#8⟩

/-- Two digits, digit pins 20 and 21, segment pins 30 and 31 in slots 0 and 1, showing "1" and a dash; idle. -/
def small : State where
  cfg := { defaultConfig with numDigits := 2 }
  ds := [0x06#8, 0x40#8]
  digitSlots := [used 20#8, used 21#8]
  segSlots := [used 30#8, used 31#8, unused, unused, unused, unused, unused, unused]
  constructed := true
  seq := .idle
  dw := 5
  cmd := []
  trace := [.cfgOut 20#8, .cfgOut 21#8, .cfgOut 30#8, .cfgOut 31#8]
  resetReq := false

/-- `small` in another sequencer state. -/
def smallAt (q : Seq) : State := { small with seq := q }

/-- `small` with bytes on the port. -/
def smallBytes (bs : List Byte) : State := { small with cmd := bs }

/-- `small` with a command on the port. -/
def smallCmd (i : Instr) : State := smallBytes (encode small.cfg i)

/-- `small` in the dwell of window 1 of its first REFRESH: window 0 over, digit 0 lit on segment b, digit 1 not. -/
def smallDwell : State :=
  { small with
    seq := .wait 1
    trace := small.trace ++ [.setOut 30#8 .high, .setOut 20#8 .high, .setOut 21#8 .high, .wait 5, .setOut 20#8 .high,
      .setOut 21#8 .high, .setOut 30#8 .low, .setOut 31#8 .high, .setOut 20#8 .low, .setOut 21#8 .high] }

/-- Window 1 a step before its dwell: digit 0 driven, digit 1 about to be. -/
def smallDrive : State := { smallDwell with seq := .drive 1 1, trace := smallDwell.trace.dropLast }

/-- Window 1 after its dwell: digit `j` about to be disabled, digit 0 done when `j` is 1. -/
def smallOff (j : Nat) : State :=
  { smallDwell with
    seq := .off 1 j
    trace := smallDwell.trace ++ .wait 5 :: List.replicate j (.setOut 20#8 .high) }

/-- A CONFIG after one of its two events, two digits, no segment pin. -/
def smallConfig : State :=
  { small with
    segSlots := List.replicate 8 unused
    ds := [0x00#8, 0x00#8]
    seq := .cfg 1 [20#8, 21#8]
    trace := [.cfgOut 20#8] }

/-- The reset state with a command on the port. -/
def freshCmd (i : Instr) : State := { State.reset with cmd := encode defaultConfig i }

/-! DECODE and levels (B1, R11). -/

theorem test_rom_default : (List.finRange 18).map (decodeSymbol defaultConfig) =
    [0x3F#8, 0x06#8, 0x5B#8, 0x4F#8, 0x66#8, 0x6D#8, 0x7D#8, 0x07#8, 0x7F#8, 0x6F#8, 0x00#8, 0x00#8, 0x00#8, 0x00#8, 0x00#8,
      0x00#8, 0x00#8, 0x40#8] := by decide
theorem test_level_bits : levelBit .high = 1#1 ∧ levelBit .low = 0#1 := by decide

/-! CONFIG: one accept step (B2.4, B2.5; B2.8 and one step of `CFG(k)`), and its event list (B2.6, B2.7). -/

theorem test_config_accept :
    (nextOf (execConfig [2#8, 3#8] [6#8, 7#8, 8#8, 9#8, 10#8, 11#8, 12#8] State.reset)).map
      (fun t => (t.constructed, t.digitSlots.map (·.valid), t.segSlots.map (·.valid), t.ds)) =
    some (true, [true, true, false, false], [true, true, true, true, true, true, true, false],
      [0x00#8, 0x00#8, 0x00#8, 0x00#8]) ∧
    (nextOf (execConfig [2#8, 3#8, 4#8, 5#8, 20#8] [6#8, 7#8, 8#8, 9#8, 10#8, 11#8, 12#8, 13#8, 14#8] State.reset)).map
      (fun t => (t.digitSlots.map (·.pin), t.segSlots.map (·.pin), t.seq)) =
    some ([2#8, 3#8, 4#8, 5#8], [6#8, 7#8, 8#8, 9#8, 10#8, 11#8, 12#8, 13#8],
      .cfg 0 [2#8, 3#8, 4#8, 5#8, 6#8, 7#8, 8#8, 9#8, 10#8, 11#8, 12#8, 13#8]) := by decide
theorem test_config_end :
    (nextOf (step (State.reset.withFetchWord 8 1))).map (fun t => (t.constructed, t.seq, t.trace, t.cmd)) =
      some (true, .idle, [], []) ∧
    (nextOf (step smallConfig)).map (fun t => (t.seq, t.trace)) = some (.idle, [.cfgOut 20#8, .cfgOut 21#8]) := by decide
theorem test_event_list_parameters :
    configPins { defaultConfig with extrasConfigured := true } [2#8, 3#8, 4#8, 5#8, 20#8]
      [6#8, 7#8, 8#8, 9#8, 10#8, 11#8, 12#8, 13#8, 14#8] =
    [2#8, 3#8, 4#8, 5#8, 20#8, 6#8, 7#8, 8#8, 9#8, 10#8, 11#8, 12#8, 13#8, 14#8] ∧
    configPins { defaultConfig with groupOrder := .segmentsFirst } [2#8, 3#8, 4#8, 5#8]
      [6#8, 7#8, 8#8, 9#8, 10#8, 11#8, 12#8] =
    [6#8, 7#8, 8#8, 9#8, 10#8, 11#8, 12#8, 2#8, 3#8, 4#8, 5#8] := by decide

/-! SETD and SETDS (B3), on two digits. -/

theorem test_setd_last_position : (nextOf (execSetd 1#8 8#8 small)).map (·.ds) = some [0x06#8, 0x7F#8] := by decide
theorem test_setd_no_ops : nextOf (execSetd 2#8 1#8 small) = some small ∧ nextOf (execSetd 255#8 1#8 small) = some small ∧
    nextOf (execSetd 1#8 18#8 small) = some small ∧ nextOf (execSetd 9#8 99#8 small) = some small := by decide
theorem test_setds_prefix : (nextOf (execSetds [9#8] small)).map (·.ds) = some [0x6F#8, 0x40#8] := by decide
/-- B3.12 on two digits: symbol 200 skips position 0 only, the extras do nothing. -/
theorem test_setds_bad_symbol_and_extras : (nextOf (execSetds [200#8, 17#8, 4#8, 5#8] { small with ds := [0x06#8, 0x00#8] })).map (·.ds) =
    some [0x06#8, 0x40#8] := by decide
/-! REFRESH: the accept step, two sequencer steps, and the trace function (R83's example, B4.3, B4.4, B4.5). -/

theorem test_refresh_accept : (nextOf (step (smallCmd (.refresh 1000)))).map (fun t => (t.dw, t.seq, t.trace, t.cmd)) =
    some (1000, .segOn 0, small.trace, []) := by decide
theorem test_refresh_no_segment_slot : (nextOf (execRefresh 7 smallConfig)).map (fun t => (t.dw, t.seq)) = some (7, .idle) := by decide
/-- R87, bit 1 of 0x06 is 1 and of 0x40 is 0. -/
theorem test_drive_polarity : (nextOf (step (smallAt (.drive 1 0)))).map (fun t => (t.trace.getLast?, t.seq)) =
      some (some (.setOut 20#8 .low), .drive 1 1) ∧
    (nextOf (step (smallAt (.drive 1 1)))).map (fun t => (t.trace.getLast?, t.seq)) =
      some (some (.setOut 21#8 .high), .wait 1) := by decide
/-- R83's example: `DS` = 0x06, 0x40, dwell 5, the windows of segments b and g. -/
theorem test_window_example :
    window { small with digitSlots := [used 2#8, used 3#8] } 5 1 7#8 =
      [.setOut 7#8 .high, .setOut 2#8 .low, .setOut 3#8 .high, .wait 5, .setOut 2#8 .high, .setOut 3#8 .high, .setOut 7#8 .low] ∧
    window { small with digitSlots := [used 2#8, used 3#8] } 5 6 12#8 =
      [.setOut 12#8 .high, .setOut 2#8 .high, .setOut 3#8 .low, .wait 5, .setOut 2#8 .high, .setOut 3#8 .high, .setOut 12#8 .low] := by
  decide
/-- B4.5: no digit slot. -/
theorem test_trace_no_digit_slot :
    refreshTrace { small with digitSlots := [unused, unused], segSlots := [used 6#8, used 7#8] } 3 =
      [.setOut 6#8 .high, .wait 3, .setOut 6#8 .low, .setOut 7#8 .high, .wait 3, .setOut 7#8 .low] := by decide
/-- R99, every row: B3.15 and B4.8 before CONFIG, B2.10, B5.9, a reset inside a command. -/
theorem test_refusals :
    refusalOf (step (freshCmd (.setd 0#8 17#8))) = some .notConstructed ∧
    refusalOf (step (freshCmd (.setds []))) = some .notConstructed ∧
    refusalOf (step (freshCmd (.refresh 0))) = some .notConstructed ∧
    refusalOf (step (smallCmd (.config [] []))) = some .alreadyConstructed ∧
    refusalOf (step (smallBytes [0x05#8, 0x00#8, 0x00#8])) = some (.reservedOpcode 0x05#8) ∧
    refusalOf (step (hostReset (smallAt (.wait 0)))) = some .resetWhileBusy := by decide
/-- What the line view says in the dwell of window 1 of the first REFRESH (R93): 31 is on, 30 off, digit 0 lit. -/
theorem test_line_view : line smallDwell.trace 31#8 = some .high ∧ line smallDwell.trace 30#8 = some .low ∧
    line smallDwell.trace 20#8 = some .low ∧ line smallDwell.trace 21#8 = some .high ∧ line smallDwell.trace 32#8 = none := by decide
theorem test_assembler_clear : assembleLine defaultConfig "CLEAR 3".toList = some (.setd 3#8 16#8) ∧
    assembleLine defaultConfig "SETD 3, 256".toList = none := by decide

/-! The invariants at concrete states. -/

theorem small_inv : Inv small :=
  ⟨by decide, by decide, by decide, by decide, by decide, by decide, by decide, by decide, by decide⟩
theorem smallBytes_inv (bs : List Byte) : Inv (smallBytes bs) :=
  ⟨small_inv.cfgLegal, small_inv.dsLength, small_inv.digitLength, small_inv.segLength, small_inv.digitsFirst,
    small_inv.segsFirst, small_inv.dwRange, small_inv.seqOk, small_inv.beforeConfig⟩
theorem smallDwell_inv : Inv smallDwell :=
  ⟨by decide, by decide, by decide, by decide, by decide, by decide, by decide, by decide, by decide⟩
theorem smallConfig_inv : Inv smallConfig :=
  ⟨by decide, by decide, by decide, by decide, by decide, by decide, by decide, by decide, by decide⟩
theorem fresh_inv : Inv State.reset :=
  ⟨by decide, by decide, by decide, by decide, by decide, by decide, by decide, by decide, by decide⟩
theorem small_distinct : PinsDistinct small := by decide
theorem small_romOnly : RomOnly small := by
  intro _ b hb
  simp only [small, List.mem_cons, List.not_mem_nil, or_false] at hb
  obtain rfl | rfl := hb
  · exact ⟨1, by decide⟩
  · exact ⟨17, by decide⟩
theorem small_drivenConfigured : DrivenConfigured small := by
  refine ⟨fun g hg => .inl ?_, ?_⟩
  · revert g; decide
  · intro p l h; simp [small] at h
theorem small_lineInv : LineInv small := by
  intro _
  simp only [lineLevels, segsOff, digitsNotLow, small]
  decide
theorem smallAt_segOn_lineInv : LineInv (smallAt (.segOn 0)) := by
  intro _
  simp only [lineLevels, segsOff, digitsNotLow, smallAt, small]
  decide
theorem smallDrive_lineInv : LineInv smallDrive := by
  intro _
  simp only [lineLevels, segsOff, segHigh, smallDrive, smallDwell]
  decide
theorem smallOff_lineInv : ∀ j ∈ [0, 1], LineInv (smallOff j) := by
  simp only [LineInv, lineLevels, segsOff, segHigh, smallOff, smallDwell]
  decide
theorem smallDwell_lineInv : LineInv smallDwell := by
  intro _
  simp only [lineLevels, segsOff, segHigh, smallDwell]
  decide

/-! Witnesses: for each statement with hypotheses, values that meet all of them, clause by clause at the boundaries. -/

theorem witness_EncodedCommandDecodesBack :
    (Instr.config [2#8] (List.replicate 255 3#8)).wf defaultConfig = true ∧ (Instr.setd 255#8 255#8).wf defaultConfig = true ∧
    (Instr.setds []).wf defaultConfig = true ∧ (Instr.refresh (2 ^ 32 - 1)).wf defaultConfig = true := by decide +kernel

theorem witness_DecodedCommandIsItsEncoding :
    decode defaultConfig [0x02#8, 0x02#8, 0x07#8, 0xFF#8] = .command (.setd 2#8 7#8) [0xFF#8] := by decide

/-- Both sides at the edges: 0x00, 0x05 and 0xFF are reserved, 0x01 and 0x04 are not. -/
theorem witness_ReservedExactlyUnlistedOpcodes :
    decode defaultConfig [0x00#8] = .reserved 0x00#8 ∧ decode defaultConfig [0x05#8] = .reserved 0x05#8 ∧
    decode defaultConfig [0xFF#8] = .reserved 0xFF#8 ∧ decode defaultConfig [0x01#8] = .incomplete ∧
    decode defaultConfig [0x04#8] = .incomplete := by decide

/-- The cut before the first byte and the cut before the last. -/
theorem witness_TruncatedCommandIsIncomplete :
    (Instr.refresh 1000).wf defaultConfig = true ∧ 0 < (encode defaultConfig (.refresh 1000)).length ∧
    4 < (encode defaultConfig (.refresh 1000)).length ∧ ¬ 5 < (encode defaultConfig (.refresh 1000)).length := by decide

theorem witness_StepRunsDecodedCommand :
    (smallCmd (.setd 0#8 1#8)).resetReq = false ∧ (smallCmd (.setd 0#8 1#8)).seq = .idle ∧
    decode (smallCmd (.setd 0#8 1#8)).cfg (smallCmd (.setd 0#8 1#8)).cmd = .command (.setd 0#8 1#8) [] := by decide

/-- No byte sent, and all but the last. -/
theorem witness_IncompleteCommandWaitsThenRuns :
    ∀ n ∈ [0, 4], (smallBytes ([0x04#8, 0xE8#8, 0x03#8, 0x00#8].take n)).resetReq = false ∧
      (smallBytes ([0x04#8, 0xE8#8, 0x03#8, 0x00#8].take n)).seq = .idle ∧
      (Instr.refresh 1000).wf (smallBytes ([0x04#8, 0xE8#8, 0x03#8, 0x00#8].take n)).cfg = true ∧
      n < (encode (smallBytes ([0x04#8, 0xE8#8, 0x03#8, 0x00#8].take n)).cfg (.refresh 1000)).length ∧
      (smallBytes ([0x04#8, 0xE8#8, 0x03#8, 0x00#8].take n)).cmd = (encode small.cfg (.refresh 1000)).take n := by decide

/-- Each of the four rows of R99. -/
theorem witness_RefusalsAreTheListedCases :
    refusalOf (step (hostReset (smallAt (.segOn 0)))) = some .resetWhileBusy ∧
    refusalOf (step { small with cmd := [0x00#8] }) = some (.reservedOpcode 0x00#8) ∧
    refusalOf (step (smallCmd (.config [2#8] []))) = some .alreadyConstructed ∧
    refusalOf (step (freshCmd (.setds []))) = some .notConstructed := by decide

theorem witness_NoFaultUnderInvariant : Inv State.reset ∧ Inv small ∧ Inv smallDwell ∧ Inv smallConfig :=
  ⟨fresh_inv, small_inv, smallDwell_inv, smallConfig_inv⟩

/-- One step from `IDLE` and one from another `seq` value. -/
theorem witness_OneEventPerSequencerStep :
    (smallCmd (.setd 0#8 1#8)).resetReq = false ∧ (smallCmd (.setd 0#8 1#8)).seq = .idle ∧
    (∃ t, step (smallCmd (.setd 0#8 1#8)) = .next t) ∧
    smallDwell.resetReq = false ∧ smallDwell.seq ≠ .idle ∧ ∃ t, step smallDwell = .next t :=
  ⟨rfl, rfl, ⟨_, rfl⟩, rfl, nofun, ⟨_, rfl⟩⟩

/-- One step for each kind of event, and one that changes a line. -/
theorem witness_EachEventHasItsSequencerState :
    (∃ t, step smallConfig = .next t ∧ smallConfig.resetReq = false ∧ t.trace = smallConfig.trace ++ [.cfgOut 21#8]) ∧
    (∃ t, step (smallAt (.segOn 0)) = .next t ∧ (smallAt (.segOn 0)).resetReq = false ∧
      t.trace = small.trace ++ [.setOut 30#8 .high] ∧ line t.trace 30#8 ≠ line small.trace 30#8) ∧
    ∃ t, step smallDwell = .next t ∧ smallDwell.resetReq = false ∧ t.trace = smallDwell.trace ++ [.wait 5] :=
  ⟨⟨_, rfl, rfl, rfl⟩, ⟨_, rfl, rfl, rfl, by decide⟩, _, rfl, rfl, rfl⟩

theorem witness_RunningCommandIgnoresCommandPort : smallDwell.seq ≠ .idle := nofun

theorem witness_ParametersNeverChange : (∃ t, step smallDwell = .next t) ∧ ∃ t, step (hostReset small) = .next t :=
  ⟨⟨_, rfl⟩, ⟨_, rfl⟩⟩

/-- One step that clears `constructed` and one that sets it. -/
theorem witness_ConstructedChangesOnlyByConfigOrReset :
    (∃ t, step (hostReset small) = .next t ∧ small.constructed = true ∧ t.constructed = false) ∧
    ∃ t, step (freshCmd (.config [2#8] [])) = .next t ∧ State.reset.constructed = false ∧ t.constructed = true :=
  ⟨⟨_, rfl, rfl, rfl⟩, ⟨_, rfl, rfl, rfl⟩⟩

theorem witness_PinAssignmentHeldForLifetime :
    smallDwell.resetReq = false ∧ smallDwell.constructed = true ∧ ∃ t, step smallDwell = .next t := ⟨rfl, rfl, ⟨_, rfl⟩⟩

theorem witness_DisplayStateWrittenOnlyBySetters :
    (smallCmd (.setd 1#8 8#8)).resetReq = false ∧ (smallCmd (.setd 1#8 8#8)).constructed = true ∧
    ∃ t, step (smallCmd (.setd 1#8 8#8)) = .next t ∧ t.ds ≠ (smallCmd (.setd 1#8 8#8)).ds :=
  ⟨rfl, rfl, ⟨_, rfl, by decide⟩⟩

theorem witness_StructuralInvariantKept :
    (Inv smallDwell ∧ ∃ t, step smallDwell = .next t) ∧
    (Inv (smallCmd (.refresh 1000)) ∧ ∃ t, step (smallCmd (.refresh 1000)) = .next t) ∧
    Inv smallConfig ∧ ∃ t, step smallConfig = .next t :=
  ⟨⟨smallDwell_inv, _, rfl⟩, ⟨smallBytes_inv _, _, rfl⟩, smallConfig_inv, _, rfl⟩

theorem witness_ResetMeetsTheInvariants : defaultConfig.Legal ∧ { defaultConfig with numDigits := 1, dwellBytes := 1 }.Legal ∧
    { defaultConfig with numDigits := 255 }.Legal := by decide

theorem witness_DisplayHoldsOnlyRomPatterns : RomOnly (smallCmd (.setd 1#8 8#8)) ∧
    ∃ t, step (smallCmd (.setd 1#8 8#8)) = .next t ∧ t.constructed = true ∧ t.ds ≠ [] :=
  ⟨small_romOnly, _, rfl, rfl, by decide⟩

theorem witness_DrivenPinsWereConfigured : DrivenConfigured (smallAt (.segOn 0)) ∧ ∃ t, step (smallAt (.segOn 0)) = .next t :=
  ⟨⟨fun g hg => .inl (small_drivenConfigured.1 g hg |>.elim id nofun), small_drivenConfigured.2⟩, _, rfl⟩

/-- In the middle of the scan, with distinct pins, so that the levels themselves are claimed. -/
theorem witness_LineLevelsKept : Inv smallDwell ∧ LineInv smallDwell ∧ PinsDistinct smallDwell ∧ ∃ t, step smallDwell = .next t :=
  ⟨smallDwell_inv, smallDwell_lineInv, by decide, _, rfl⟩

theorem witness_ConfigStoresPinAssignment :
    State.reset.constructed = false ∧ State.reset.seq = .idle ∧ State.reset.digitSlots.length = State.reset.cfg.numDigits ∧
    State.reset.segSlots.length = 8 := by decide

/-- The four values of the two parameters. -/
theorem witness_ConfigEventListByParameters :
    ∀ g ∈ [GroupOrder.digitsFirst, .segmentsFirst], ∀ x ∈ [false, true],
      { defaultConfig with groupOrder := g, extrasConfigured := x }.groupOrder = g ∧
      { defaultConfig with groupOrder := g, extrasConfigured := x }.extrasConfigured = x := by decide

theorem witness_ConfigLeavesEveryDigitBlank : State.reset.constructed = false ∧ 3 < State.reset.cfg.numDigits := by decide

theorem witness_ConfigRunEmitsItsEventList :
    (freshCmd (.config [2#8] [6#8])).resetReq = false ∧ (freshCmd (.config [2#8] [6#8])).seq = .idle ∧
    (freshCmd (.config [2#8] [6#8])).constructed = false ∧
    (Instr.config [2#8] [6#8]).wf (freshCmd (.config [2#8] [6#8])).cfg = true ∧
    (freshCmd (.config [2#8] [6#8])).cmd = encode (freshCmd (.config [2#8] [6#8])).cfg (.config [2#8] [6#8]) ++ [] := by decide

/-- Positions 1 and 2 of two digits; symbols 9, 10, 15 and 17 in range, 18 out of it. -/
theorem witness_SetdWritesOneEntryOrNothing :
    small.constructed = true ∧ small.ds.length = small.cfg.numDigits ∧
    (1#8 : Byte).toNat < small.cfg.numDigits ∧ small.cfg.numDigits ≤ (2#8 : Byte).toNat ∧
    (9#8 : Byte).toNat = (9 : Symbol).val ∧ (10#8 : Byte).toNat = (10 : Symbol).val ∧
    (15#8 : Byte).toNat = (15 : Symbol).val ∧ (17#8 : Byte).toNat = (17 : Symbol).val ∧ 17 < (18#8 : Byte).toNat := by decide

/-- The last position updated, the first one not, a symbol of 17 and one of 18, for a short list and for a long one. -/
theorem witness_SetdsUpdatesSuppliedPositions :
    small.constructed = true ∧ small.ds.length = small.cfg.numDigits ∧
    (0 < min [17#8].length small.cfg.numDigits ∧ min [17#8].length small.cfg.numDigits ≤ 1) ∧
    (1 < min [17#8, 18#8, 1#8].length small.cfg.numDigits ∧ min [17#8, 18#8, 1#8].length small.cfg.numDigits ≤ 2) ∧
    [17#8, 18#8, 1#8][0]? = some (17#8 : Byte) ∧ (17#8 : Byte).toNat = (17 : Symbol).val ∧
    [17#8, 18#8, 1#8][1]? = some (18#8 : Byte) ∧ 17 < (18#8 : Byte).toNat := by decide

theorem witness_SetdsActsAsSetdSequence : small.constructed = true ∧ (List.replicate 255 1#8).length ≤ 255 := by decide +kernel

/-- Two writes of position 0 around a REFRESH; position 1, the last, is addressed by a no-op only. -/
def someWrites : List Instr := [.setd 0#8 8#8, .refresh 3, .setds [17#8, 18#8]]

/-- Each clause: an instance with a written and an unwritten position, a list without a REFRESH, and no instance yet. -/
theorem witness_LastWriteWins :
    (∀ i ∈ someWrites, ∀ dpins spins, i ≠ .config dpins spins) ∧
    small.constructed = true ∧ small.ds.length = small.cfg.numDigits ∧ 1 < small.cfg.numDigits ∧
    lastSymbol small.cfg 0 someWrites = some 17 ∧ lastSymbol small.cfg 1 someWrites = none ∧
    (∀ i ∈ [Instr.setd 0#8 8#8, .setds [17#8]], (∀ dpins spins, i ≠ .config dpins spins) ∧ ∀ dwell, i ≠ .refresh dwell) ∧
    State.reset.constructed = false ∧ 3 < State.reset.cfg.numDigits := by
  refine ⟨?_, rfl, by decide, by decide, by decide, by decide, ?_, rfl, by decide⟩
  · intro i hi dpins spins
    simp only [someWrites, List.mem_cons, List.not_mem_nil, or_false] at hi
    obtain rfl | rfl | rfl := hi <;> exact nofun
  · intro i hi
    simp only [List.mem_cons, List.not_mem_nil, or_false] at hi
    obtain rfl | rfl := hi <;> exact ⟨nofun, nofun⟩

/-- One state with an assigned segment slot and one without; `nextSeg` with an answer and without one. -/
theorem witness_RefreshAcceptGoesToFirstWindow :
    small.constructed = true ∧ small.seq = .idle ∧ nextAssigned small.segSlots 0 = some 0 ∧
    nextAssigned small.segSlots 1 = some 1 ∧ nextAssigned small.segSlots 2 = none ∧ nextAssigned small.segSlots 8 = none ∧
    nextAssigned (List.replicate 8 unused) 0 = none := by decide

theorem witness_SegOnStep :
    (smallAt (.segOn 1)).resetReq = false ∧ (smallAt (.segOn 1)).seq = .segOn 1 ∧
    (smallAt (.segOn 1)).segSlots[1]? = some ⟨true, 31#8⟩ := by decide

/-- The last digit, a bit that is 1 and one that is 0; and a step of another kind. -/
theorem witness_DriveStep :
    (smallDwell.resetReq = false ∧ smallDwell.seq = .wait 1) ∧
    ∀ i ∈ [6, 0], (smallAt (.drive i 1)).resetReq = false ∧ (smallAt (.drive i 1)).seq = .drive i 1 ∧ i < 8 ∧
      (smallAt (.drive i 1)).digitSlots[1]? = some ⟨true, 21#8⟩ ∧ (smallAt (.drive i 1)).ds[1]? = some 0x40#8 ∧
      (0x40#8 : Byte).getLsbD i = decide (i = 6) := by decide

theorem witness_WaitStep : smallDwell.resetReq = false ∧ smallDwell.seq = .wait 1 ∧
    ({ smallDwell with dw := 0 } : State).seq = .wait 1 := by decide

theorem witness_OffStep :
    (smallAt (.off 1 0)).resetReq = false ∧ (smallAt (.off 1 0)).seq = .off 1 0 ∧
    (smallAt (.off 1 0)).digitSlots[0]? = some ⟨true, 20#8⟩ := by decide

/-- A slot with a next window, and slot 7 of eight. -/
theorem witness_SegOffStep :
    (smallAt (.segOff 0)).resetReq = false ∧ (smallAt (.segOff 0)).seq = .segOff 0 ∧
    (smallAt (.segOff 0)).segSlots[0]? = some ⟨true, 30#8⟩ ∧ (smallAt (.segOff 0)).segSlots.length = 8 ∧
    ({ small with seq := .segOff 7, segSlots := List.replicate 8 (used 37#8) } : State).segSlots[7]? = some ⟨true, 37#8⟩ := by
  decide

/-- A command of 14 events and one of none. -/
theorem witness_RefreshRunEmitsTheTraceFunction :
    Inv (smallCmd (.refresh 1000)) ∧ (smallCmd (.refresh 1000)).resetReq = false ∧ (smallCmd (.refresh 1000)).seq = .idle ∧
    (smallCmd (.refresh 1000)).constructed = true ∧ (Instr.refresh 1000).wf (smallCmd (.refresh 1000)).cfg = true ∧
    (smallCmd (.refresh 1000)).cmd = encode (smallCmd (.refresh 1000)).cfg (.refresh 1000) ++ [] ∧
    (refreshTrace (smallCmd (.refresh 1000)) 1000).length = 14 :=
  ⟨smallBytes_inv _, rfl, rfl, rfl, by decide, by decide, by decide⟩

theorem witness_RefreshEventCounts :
    PinsDistinct small ∧ (1, 31#8) ∈ assignedSlots small.segSlots ∧ (1, 21#8) ∈ assignedSlots small.digitSlots := by decide

/-- A trace that names pins, a state with no segment slot, one with no digit slot, and an unassigned digit. -/
theorem witness_UnassignedSlotsContributeNothing :
    Event.setOut 30#8 .high ∈ refreshTrace small 5 ∧
    (∀ k, isAssigned (List.replicate 8 unused) k = false) ∧
    isAssigned [used 20#8, unused] 1 = false := by
  refine ⟨by decide, fun k => ?_, by decide⟩
  simp only [isAssigned, List.getElem?_replicate]
  split <;> rfl

/-- Segment g has no pin in `small`, so a dash and a blank give one trace. -/
theorem witness_TraceReadsOnlyAssignedBits :
    small.ds ≠ [0x06#8, 0x00#8] ∧ ∀ g ∈ assignedSlots small.segSlots, ∀ e ∈ assignedSlots small.digitSlots,
      readDsBit { small with ds := [0x06#8, 0x00#8] } e.1 g.1 = readDsBit small e.1 g.1 := by decide

theorem witness_DecimalPointNeverLit : RomOnly small ∧ small.constructed = true ∧ driveEvents small 7 ≠ [] :=
  ⟨small_romOnly, rfl, by decide⟩

theorem witness_DwellWindowLevels :
    Inv (smallCmd (.refresh 1000)) ∧ (smallCmd (.refresh 1000)).resetReq = false ∧ (smallCmd (.refresh 1000)).seq = .idle ∧
    (smallCmd (.refresh 1000)).constructed = true ∧ PinsDistinct (smallCmd (.refresh 1000)) ∧
    (Instr.refresh 1000).wf (smallCmd (.refresh 1000)).cfg = true ∧
    (smallCmd (.refresh 1000)).cmd = encode (smallCmd (.refresh 1000)).cfg (.refresh 1000) ++ [] ∧
    (0, 30#8) ∈ assignedSlots (smallCmd (.refresh 1000)).segSlots ∧
    (1, 31#8) ∈ assignedSlots (smallCmd (.refresh 1000)).segSlots ∧
    (0, 20#8) ∈ assignedSlots (smallCmd (.refresh 1000)).digitSlots :=
  ⟨smallBytes_inv _, rfl, rfl, rfl, by decide, by decide, by decide, by decide, by decide, by decide⟩

theorem witness_DisplayDarkAfterRefresh :
    PinsDistinct small ∧ assignedSlots small.segSlots ≠ [] ∧ assignedSlots smallConfig.segSlots = [] := by decide

/-- A line with a level and one with none. -/
theorem witness_LineViewIsTheLastSetOut :
    line smallDwell.trace 20#8 = some .low ∧ line smallDwell.trace 32#8 = none := by decide

/-- Each phase: the dwell, a `DRIVE` with digit 0 behind it and digit 1 not, an `OFF` before and after digit 0, and two phases in
which nothing is lit. -/
theorem witness_LitLampsAreThePatternBits :
    ((1, 31#8) ∈ assignedSlots small.segSlots ∧ (0, 20#8) ∈ assignedSlots small.digitSlots ∧
      (1, 21#8) ∈ assignedSlots small.digitSlots) ∧
    (LineInv smallDwell ∧ PinsDistinct smallDwell ∧ smallDwell.seq = .wait 1) ∧
    (LineInv smallDrive ∧ PinsDistinct smallDrive ∧ smallDrive.seq = .drive 1 1) ∧
    (∀ j ∈ [0, 1], LineInv (smallOff j) ∧ PinsDistinct (smallOff j) ∧ (smallOff j).seq = .off 1 j) ∧
    (LineInv small ∧ PinsDistinct small ∧ small.seq = .idle) ∧
    LineInv (smallAt (.segOn 0)) ∧ PinsDistinct (smallAt (.segOn 0)) ∧ (smallAt (.segOn 0)).seq = .segOn 0 :=
  ⟨by decide, ⟨smallDwell_lineInv, by decide, rfl⟩, ⟨smallDrive_lineInv, by decide, rfl⟩,
    fun j hj => ⟨smallOff_lineInv j hj, small_distinct, rfl⟩, ⟨small_lineInv, by decide, rfl⟩,
    smallAt_segOn_lineInv, by decide, rfl⟩

theorem witness_DwellLatchHasNoEffectBetweenRefreshes :
    (smallCmd (.setd 0#8 1#8)).seq = .idle ∧ (smallCmd (.setd 0#8 1#8)).resetReq = false ∧
    ∀ dwell rest, decode (smallCmd (.setd 0#8 1#8)).cfg (smallCmd (.setd 0#8 1#8)).cmd ≠ .command (.refresh dwell) rest := by
  refine ⟨rfl, rfl, fun dwell rest => ?_⟩
  rw [show decode (smallCmd (.setd 0#8 1#8)).cfg (smallCmd (.setd 0#8 1#8)).cmd = .command (.setd 0#8 1#8) [] by decide]
  exact nofun

theorem witness_PinIdentifiersAreOpaque : smallDwell.seq ≠ .idle := nofun

/-- One command of each kind. -/
theorem witness_EveryAcceptedCommandRunsToIdle :
    (∀ i ∈ [Instr.setd 0#8 1#8, .setds [1#8], .refresh 1000], (smallCmd i).resetReq = false ∧ (smallCmd i).seq = .idle ∧
      decode (smallCmd i).cfg (smallCmd i).cmd = .command i [] ∧ accepts i (smallCmd i) = true) ∧
    Inv (smallCmd (.refresh 1000)) ∧ Inv (freshCmd (.config [2#8] [])) ∧
    decode (freshCmd (.config [2#8] [])).cfg (freshCmd (.config [2#8] [])).cmd = .command (.config [2#8] []) [] ∧
    accepts (.config [2#8] []) (freshCmd (.config [2#8] [])) = true :=
  ⟨by decide, smallBytes_inv _,
    ⟨by decide, by decide, by decide, by decide, by decide, by decide, by decide, by decide, by decide⟩, by decide, by decide⟩

/-- The bytes of `SETD 0, 1` and `REFRESH 1000`. -/
def streamBytes : List Byte := [0x02#8, 0x00#8, 0x01#8, 0x04#8, 0xE8#8, 0x03#8, 0x00#8, 0x00#8]

theorem witness_CommandStreamRunsToItsEnd :
    Inv (smallBytes streamBytes) ∧ (smallBytes streamBytes).resetReq = false ∧ (smallBytes streamBytes).seq = .idle ∧
    (smallBytes streamBytes).constructed = true ∧
    (∀ i ∈ [Instr.setd 0#8 1#8, .refresh 1000],
      i.wf (smallBytes streamBytes).cfg = true ∧ ∀ dpins spins, i ≠ .config dpins spins) ∧
    (smallBytes streamBytes).cmd = [Instr.setd 0#8 1#8, .refresh 1000].flatMap (encode (smallBytes streamBytes).cfg) := by
  refine ⟨smallBytes_inv _, rfl, rfl, rfl, ?_, by decide⟩
  intro i hi
  simp only [List.mem_cons, List.not_mem_nil, or_false] at hi
  obtain rfl | rfl := hi <;> exact ⟨by decide, nofun⟩

/-- In `IDLE`, and while a command runs. -/
theorem witness_ResetLeavesNoInstance : (hostReset small).resetReq = true ∧ (hostReset small).seq = .idle ∧
    (hostReset smallDwell).resetReq = true ∧ (hostReset smallDwell).seq ≠ .idle := ⟨rfl, rfl, rfl, nofun⟩

/-- Both ends of each range of symbols. -/
theorem witness_RomEntriesForEveryParameter :
    (9 : Symbol).val < 10 ∧ 10 ≤ (10 : Symbol).val ∧ (16 : Symbol).val ≤ 16 ∧ (17 : Symbol).val = 17 := by decide

end Sys2Proof.Tests
end

section
/-!
The line view read back from the trace (spec R12): a trace either never drives the line, or splits at the last event that does,
and `line` is known in each of the two cases.
-/
namespace Sys2Proof.Machine

/-- The last event of `T` that drives the line `p` is `SetOut(p, l)` (R12). -/
def LastSetOut (T : List Event) (p : Pin) (l : Level) : Prop :=
  ∃ before after, T = before ++ .setOut p l :: after ∧ ∀ l', Event.setOut p l' ∉ after

theorem LastSetOut.mem {T : List Event} {p : Pin} {l : Level} (h : LastSetOut T p l) : Event.setOut p l ∈ T := by
  obtain ⟨before, after, rfl, -⟩ := h
  simp

/-- An event put before the trace is not its last. -/
theorem LastSetOut.cons {T : List Event} {p : Pin} {l : Level} (e : Event) (h : LastSetOut T p l) :
    LastSetOut (e :: T) p l := by
  obtain ⟨before, after, rfl, hafter⟩ := h
  exact ⟨e :: before, after, rfl, hafter⟩

theorem exists_lastSetOut_of_mem {T : List Event} {p : Pin} {l : Level} (h : Event.setOut p l ∈ T) :
    ∃ l', LastSetOut T p l' := by
  induction T generalizing l with
  | nil => cases h
  | cons e es ih =>
    by_cases hes : ∃ l', Event.setOut p l' ∈ es
    · obtain ⟨_, hmem⟩ := hes
      obtain ⟨l', hlast⟩ := ih hmem
      exact ⟨l', hlast.cons e⟩
    · have hnone : ∀ l', Event.setOut p l' ∉ es := not_exists.mp hes
      obtain rfl : Event.setOut p l = e := (List.mem_cons.mp h).resolve_right (hnone l)
      exact ⟨l, [], es, rfl, hnone⟩

/-- What came before the last `SetOut` to the line is overwritten by it, and nothing after it touches the line. -/
theorem LastSetOut.line_eq {T : List Event} {p : Pin} {l : Level} (h : LastSetOut T p l) : line T p = some l := by
  obtain ⟨before, after, rfl, hafter⟩ := h
  calc line (before ++ .setOut p l :: after) p
      = lineFrom (lineAfter p (line before p) (.setOut p l)) after p := line_append ..
    _ = lineAfter p (line before p) (.setOut p l) := lineFrom_of_not_mem hafter _
    _ = some l := if_pos rfl

theorem line_eq_none_iff {T : List Event} {p : Pin} : line T p = none ↔ ∀ l, Event.setOut p l ∉ T := by
  refine ⟨fun hnone l hmem => ?_, fun h => lineFrom_of_not_mem h none⟩
  obtain ⟨l', hlast⟩ := exists_lastSetOut_of_mem hmem
  simp [hlast.line_eq] at hnone

theorem line_eq_some_iff {T : List Event} {p : Pin} {l : Level} : line T p = some l ↔ LastSetOut T p l := by
  refine ⟨fun hsome => ?_, LastSetOut.line_eq⟩
  have hdriven : ∃ l', Event.setOut p l' ∈ T := by
    by_contra hundriven
    simp [line_eq_none_iff.mpr (not_exists.mp hundriven)] at hsome
  obtain ⟨_, hmem⟩ := hdriven
  obtain ⟨l', hlast⟩ := exists_lastSetOut_of_mem hmem
  obtain rfl : l' = l := Option.some.inj (hlast.line_eq.symm.trans hsome)
  exact hlast

/-- Settles O44, from the split of the trace at the last `SetOut` to the line. -/
theorem lineViewIsTheLastSetOut : Obligations.LineViewIsTheLastSetOut :=
  fun _ _ => ⟨fun _ => line_eq_some_iff, line_eq_none_iff⟩

end Sys2Proof.Machine
end

section
/-!
The setters taken together (spec R77 to R81): SETD and SETDS, whole, write the Display State alone, and leave there what was
there before or ROM entries. Then the steps in which the decoder and the accept step have the last word: what the dwell operand
can be (R62), and which outcomes are no next state (R99, D28).
-/
namespace Sys2Proof.Machine

/-- The commands that write the Display State while `constructed` = 1 (R17). -/
def IsSetter (i : Instr) : Prop := (∃ position symbol, i = .setd position symbol) ∨ ∃ symbols, i = .setds symbols

theorem commandResult_setter_frame {i : Instr} (hi : IsSetter i) (s : State) :
    commandResult i s = { s with ds := (commandResult i s).ds } := by
  obtain ⟨position, symbol, rfl⟩ | ⟨symbols, rfl⟩ := hi
  · exact setDigit_frame ..
  · exact setDigitsFrom_frame ..

theorem commandResult_setter_ds_length {i : Instr} (hi : IsSetter i) (s : State) :
    (commandResult i s).ds.length = s.ds.length := by
  obtain ⟨position, symbol, rfl⟩ | ⟨symbols, rfl⟩ := hi
  · exact setDigit_ds_length ..
  · exact setDigitsFrom_ds_length ..

theorem mem_commandResult_setter_ds {i : Instr} (hi : IsSetter i) {s : State} {b : Byte}
    (hb : b ∈ (commandResult i s).ds) : b ∈ s.ds ∨ ∃ sym, b = decodeSymbol s.cfg sym := by
  obtain ⟨position, symbol, rfl⟩ | ⟨symbols, rfl⟩ := hi
  · exact mem_setDigit_ds hb
  · exact mem_setDigitsFrom_ds _ _ _ hb

/-- `exec_next` with the two setters as one case. -/
theorem exec_next_setter {i : Instr} {s t : State} (h : exec i s = .next t) :
    (∃ dpins spins, i = .config dpins spins ∧ s.constructed = false ∧
      t = goto (configSeq 0 (configPins s.cfg dpins spins)) (construct dpins spins s)) ∨
    (IsSetter i ∧ s.constructed = true ∧ t = commandResult i s) ∨
    (∃ dwell, i = .refresh dwell ∧ s.constructed = true ∧ t = goto (segSeq s 0) (latchDwell dwell s)) := by
  rcases exec_next h with hconfig | ⟨position, symbol, rfl, hc, rfl⟩ | ⟨symbols, rfl, hc, rfl⟩ | hrefresh
  · exact .inl hconfig
  · exact .inr (.inl ⟨.inl ⟨_, _, rfl⟩, hc, rfl⟩)
  · exact .inr (.inl ⟨.inr ⟨_, rfl⟩, hc, rfl⟩)
  · exact .inr (.inr hrefresh)

/-- The setter's body commutes with whatever keeps the parameters and commutes with the write of an entry. -/
theorem setDigit_comm {f : State → State} (hcfg : ∀ s, (f s).cfg = s.cfg)
    (hwrite : ∀ j v s, writeDs j v (f s) = f (writeDs j v s)) (k : Nat) (y : Byte) (s : State) :
    setDigit k y (f s) = f (setDigit k y s) := by
  unfold setDigit
  rw [hcfg]
  split
  · cases symbolOperand y with
    | none => rfl
    | some sym => exact hwrite ..
  · rfl

theorem setDigitsFrom_comm {f : State → State} (hcfg : ∀ s, (f s).cfg = s.cfg)
    (hwrite : ∀ j v s, writeDs j v (f s) = f (writeDs j v s)) (ys : List Byte) : ∀ (k : Nat) (s : State),
    setDigitsFrom k ys (f s) = f (setDigitsFrom k ys s) := by
  induction ys with
  | nil => intros; rfl
  | cons y ys ih => intro k s; rw [setDigitsFrom, setDigit_comm hcfg hwrite, ih]; rfl

/-! Only format RF spells a REFRESH (R60). -/

theorem decodeCfg_ne_refresh (bs : List Byte) (dwell : Nat) (rest : List Byte) :
    decodeCfg bs ≠ .command (.refresh dwell) rest := by
  unfold decodeCfg
  split
  · split
    · exact nofun
    · split <;> exact nofun
  · exact nofun

theorem decodeSd_ne_refresh (bs : List Byte) (dwell : Nat) (rest : List Byte) :
    decodeSd bs ≠ .command (.refresh dwell) rest := by
  unfold decodeSd
  split <;> exact nofun

theorem decodeSds_ne_refresh (bs : List Byte) (dwell : Nat) (rest : List Byte) :
    decodeSds bs ≠ .command (.refresh dwell) rest := by
  unfold decodeSds
  split
  · split <;> exact nofun
  · exact nofun

theorem decodeRf_refresh_lt {c : Config} {bs rest : List Byte} {dwell : Nat}
    (h : decodeRf c bs = .command (.refresh dwell) rest) : dwell < 2 ^ c.dwellW := by
  unfold decodeRf at h
  split at h
  next => cases h
  next operand _ htake =>
    obtain ⟨rfl, rfl⟩ : leNat operand = dwell ∧ _ = rest := by simpa using h
    rw [Config.dwellW, ← (takeBytes_eq_some.mp htake).1]
    exact leNat_lt operand

/-- A decoded dwell operand fits in `DWELL_W` bits (R55, R62). -/
theorem decode_refresh_lt {c : Config} {bs rest : List Byte} {dwell : Nat}
    (h : decode c bs = .command (.refresh dwell) rest) : dwell < 2 ^ c.dwellW := by
  cases bs with
  | nil => cases h
  | cons b bs =>
    simp only [decode] at h
    split at h
    · cases h
    · exact absurd h (decodeCfg_ne_refresh _ _ _)
    · exact absurd h (decodeSd_ne_refresh _ _ _)
    · exact absurd h (decodeSds_ne_refresh _ _ _)
    · exact decodeRf_refresh_lt h

/-! The accept step beside the answers that are a next state. -/

theorem step_reset {s : State} (hr : s.resetReq = true) : step s = takeReset s := by
  simp [step, stepWith, hr]

/-- In `IDLE` a reserved opcode is refused (R64, R99). -/
theorem step_reserved {s : State} {b : Byte} (hr : s.resetReq = false) (hq : s.seq = .idle)
    (hd : decode s.cfg s.cmd = .reserved b) : step s = .refused (.reservedOpcode b) := by
  simp [step, stepWith, hr, sequencerStep, hq, acceptCommand, hd]

theorem takeReset_ne_fault (s : State) (f : Fault) : takeReset s ≠ .fault f := by
  unfold takeReset
  split <;> exact nofun

/-- A command is accepted or refused, never a fault (R95, R99). -/
theorem exec_ne_fault (i : Instr) (s : State) (f : Fault) : exec i s ≠ .fault f := by
  cases ha : accepts i s with
  | true =>
    obtain ⟨t, ht⟩ := exec_accepted ha
    rw [ht]; exact nofun
  | false => rw [exec_not_accepted ha]; exact nofun

/-- Settles O7. -/
theorem stepRunsDecodedCommand : Obligations.StepRunsDecodedCommand :=
  fun _ _ _ hr hq hd => step_accept hr hq hd

end Sys2Proof.Machine
end

section
/-!
What a step does to the registers outside the sequencer (spec R15): the parameters, `constructed`, the slots and the Display State. A
reset renews them, an accepted CONFIG fills them, an accepted setter writes `DS` alone, and every other step keeps them all.
-/
namespace Sys2Proof.Machine

/-- What no step but a CONFIG or a reset may change (R23, R25, R29, R30) is the same in both states. -/
structure SameInstance (s t : State) : Prop where
  cfg : t.cfg = s.cfg
  constructed : t.constructed = s.constructed
  digitSlots : t.digitSlots = s.digitSlots
  segSlots : t.segSlots = s.segSlots

/-- The four ways in which a step can treat the registers outside the sequencer. -/
inductive RegisterStep (s t : State) : Prop where
  | reset (hr : s.resetReq = true) (ht : t = withCmd s.cmd (State.resetWith s.cfg))
  | config {dpins spins rest} (hr : s.resetReq = false) (hq : s.seq = .idle)
      (hd : decode s.cfg s.cmd = .command (.config dpins spins) rest) (hc : s.constructed = false)
      (ht : t = goto (configSeq 0 (configPins s.cfg dpins spins)) (construct dpins spins (withCmd rest s)))
  | setter {i rest} (hq : s.seq = .idle) (hd : decode s.cfg s.cmd = .command i rest) (hi : IsSetter i)
      (hsame : SameInstance s t) (hds : ∀ b ∈ t.ds, b ∈ s.ds ∨ ∃ sym, b = decodeSymbol s.cfg sym)
  | kept (hsame : SameInstance s t) (hds : t.ds = s.ds)

theorem registerStep {s t : State} (h : step s = .next t) : RegisterStep s t := by
  rcases step_cases h with ⟨hr, _, ht⟩ | ⟨hr, hq, i, rest, hd, hexec⟩ | ⟨_, _, _, rfl⟩ | ⟨_, _, e, q, _, rfl⟩
  · exact .reset hr ht
  · rcases exec_next_setter hexec with ⟨dpins, spins, rfl, hc, ht⟩ | ⟨hi, _, rfl⟩ | ⟨dwell, _, _, rfl⟩
    · exact .config hr hq hd hc ht
    · refine .setter hq hd hi ?_ fun b hb => mem_commandResult_setter_ds (s := withCmd rest s) hi hb
      rw [commandResult_setter_frame hi]
      exact ⟨rfl, rfl, rfl, rfl⟩
    · exact .kept ⟨rfl, rfl, rfl, rfl⟩ rfl
  · exact .kept ⟨rfl, rfl, rfl, rfl⟩ rfl
  · exact .kept ⟨rfl, rfl, rfl, rfl⟩ rfl

/-- Settles O14. -/
theorem parametersNeverChange : Obligations.ParametersNeverChange := by
  intro s t h
  cases registerStep h with
  | reset _ ht => rw [ht]; rfl
  | config _ _ _ _ ht => rw [ht]; rfl
  | setter _ _ _ hsame => exact hsame.cfg
  | kept hsame => exact hsame.cfg

/-- Settles O15: of the four ways only the reset clears `constructed` and only CONFIG sets it. -/
theorem constructedChangesOnlyByConfigOrReset : Obligations.ConstructedChangesOnlyByConfigOrReset := by
  intro s t h
  cases registerStep h with
  | reset hr ht => subst ht; exact ⟨fun _ _ => hr, nofun⟩
  | config hr hq hd hc ht => exact ⟨fun hc' => absurd hc' (by simp [hc]), fun _ _ => ⟨hr, hq, _, _, _, hd⟩⟩
  | setter _ _ _ hsame => rw [hsame.constructed]; simp +contextual
  | kept hsame => rw [hsame.constructed]; simp +contextual

/-- Settles O16. -/
theorem pinAssignmentHeldForLifetime : Obligations.PinAssignmentHeldForLifetime := by
  intro s t hr hc h
  cases registerStep h with
  | reset hr' => simp [hr] at hr'
  | config _ _ _ hc' => simp [hc] at hc'
  | setter _ _ _ hsame => exact ⟨hsame.digitSlots, hsame.segSlots⟩
  | kept hsame => exact ⟨hsame.digitSlots, hsame.segSlots⟩

/-- Settles O17. -/
theorem displayStateWrittenOnlyBySetters : Obligations.DisplayStateWrittenOnlyBySetters := by
  intro s t hr hc h hne
  cases registerStep h with
  | reset hr' => simp [hr] at hr'
  | config _ _ _ hc' => simp [hc] at hc'
  | setter hq hd hi => exact ⟨hq, _, _, hd, hi⟩
  | kept _ hds => exact absurd hds hne

/-! The ROM patterns (R18, R68). -/

/-- Bit 7 of every ROM entry is 0: a glyph has seven bits, and the fixed entries are 0x00 and 0x40 (R68). -/
theorem decodeSymbol_bit7 (c : Config) (sym : Symbol) : (decodeSymbol c sym).getLsbD 7 = false := by
  unfold decodeSymbol romRead
  split_ifs
  · simp [BitVec.getLsbD_of_ge]
  · decide
  · decide

theorem RomOnly.bit7 {s : State} (h : RomOnly s) (hc : s.constructed = true) : ∀ b ∈ s.ds, b.getLsbD 7 = false := by
  intro b hb
  obtain ⟨sym, rfl⟩ := h hc b hb
  exact decodeSymbol_bit7 _ sym

/-- Display State entries that were there before or are ROM entries keep the invariant. -/
theorem RomOnly.of_sameInstance {s t : State} (h : RomOnly s) (hsame : SameInstance s t)
    (hds : ∀ b ∈ t.ds, b ∈ s.ds ∨ ∃ sym, b = decodeSymbol s.cfg sym) : RomOnly t := by
  intro hc b hb
  rw [hsame.cfg]
  rw [hsame.constructed] at hc
  exact (hds b hb).elim (h hc b) id

theorem RomOnly.step {s t : State} (h : RomOnly s) (hs : step s = .next t) : RomOnly t := by
  cases registerStep hs with
  | reset _ ht => subst ht; exact nofun
  | config _ _ _ _ ht => subst ht; exact fun _ b hb => ⟨emptySymbol, List.eq_of_mem_replicate hb⟩
  | setter _ _ _ hsame hds => exact h.of_sameInstance hsame hds
  | kept hsame hds => exact h.of_sameInstance hsame fun b hb => .inl (hds ▸ hb)

/-- Settles O20. -/
theorem displayHoldsOnlyRomPatterns : Obligations.DisplayHoldsOnlyRomPatterns :=
  fun _ _ h hs => ⟨h.step hs, (h.step hs).bit7⟩

end Sys2Proof.Machine
end

section
/-!
The structural invariant, one rule per state operation: the assigned slots stay first in their arrays (spec R26), every move of the
sequencer leads to assigned slots (R85 to R90), and each write keeps what it does not name.
-/
namespace Sys2Proof.Machine

/-! The assigned slots come first (R26). -/

theorem assignedFirst_of_none_valid {slots : List Slot} (h : ∀ sl ∈ slots, sl.valid = false) :
    assignedFirst slots = true := by
  rw [assignedFirst, List.all_eq_true]
  intro sl hsl
  simp [h sl ((List.dropWhile_sublist _).mem hsl)]

theorem assignedFirst_cons_valid (p : Pin) (slots : List Slot) :
    assignedFirst (⟨true, p⟩ :: slots) = assignedFirst slots := rfl

theorem fillSlots_nil_valid {slots : List Slot} : ∀ sl ∈ fillSlots slots [], sl.valid = false := by
  induction slots with
  | nil => simp [fillSlots]
  | cons sl sls ih => simpa [fillSlots] using ih

/-- CONFIG fills from slot 0 upward (R72). -/
theorem assignedFirst_fillSlots (slots : List Slot) : ∀ pins, assignedFirst (fillSlots slots pins) = true := by
  induction slots with
  | nil => intro pins; rfl
  | cons sl sls ih =>
    intro pins
    cases pins with
    | nil => exact assignedFirst_of_none_valid fillSlots_nil_valid
    | cons p ps => rw [fillSlots, assignedFirst_cons_valid]; exact ih ps

theorem replicate_unassigned_valid {n : Nat} : ∀ sl ∈ List.replicate n (Slot.mk false resetByte), sl.valid = false := by
  intro sl hsl
  rw [List.eq_of_mem_replicate hsl]

theorem assignedSlots_replicate_unassigned (n : Nat) :
    assignedSlots (List.replicate n ⟨false, resetByte⟩) = [] :=
  assignedFrom_eq_nil replicate_unassigned_valid 0

/-! Where the sequencer can be sent (R73, R85 to R90). -/

theorem seqLegal_configSeq (k : Nat) (pins : List Pin) (s : State) : seqLegal (goto (configSeq k pins) s) = true := by
  unfold configSeq
  split
  next hk => exact decide_eq_true hk
  next => rfl

theorem seqLegal_segSeq (s : State) (i : Nat) : seqLegal (goto (segSeq s i) s) = true := by
  unfold segSeq
  split
  next => rfl
  next i' hnext => exact (nextAssigned_some hnext).2.1

theorem seqLegal_driveSeq {s : State} {i : Nat} (hi : isAssigned s.segSlots i = true) (j : Nat) :
    seqLegal (goto (driveSeq s i j) s) = true := by
  unfold driveSeq
  split
  next => exact hi
  next j' hnext => exact Bool.and_eq_true_iff.mpr ⟨hi, (nextAssigned_some hnext).2.1⟩

theorem seqLegal_offSeq {s : State} {i : Nat} (hi : isAssigned s.segSlots i = true) (j : Nat) :
    seqLegal (goto (offSeq s i j) s) = true := by
  unfold offSeq
  split
  next => exact hi
  next j' hnext => exact Bool.and_eq_true_iff.mpr ⟨hi, (nextAssigned_some hnext).2.1⟩

/-- A move from a legal `seq` value leads to a legal one: the window's segment slot stays assigned throughout. -/
theorem Moves.seqLegal_goto {s : State} {e : Event} {q : Seq} (hm : Moves s e q) (hlegal : seqLegal s = true) :
    seqLegal (goto q s) = true := by
  unfold seqLegal at hlegal
  cases hm with
  | cfg => exact seqLegal_configSeq ..
  | segOn h hp => exact seqLegal_driveSeq (isAssigned_iff.mpr ⟨_, hp⟩) 0
  | drive h =>
    rw [h] at hlegal
    exact seqLegal_driveSeq (Bool.and_eq_true_iff.mp hlegal).1 _
  | wait h =>
    rw [h] at hlegal
    exact seqLegal_offSeq hlegal 0
  | off h =>
    rw [h] at hlegal
    exact seqLegal_offSeq (Bool.and_eq_true_iff.mp hlegal).1 _
  | segOff => exact seqLegal_segSeq ..

/-! Each operation keeps the invariant. -/

theorem Inv.resetWith {c : Config} (hc : c.Legal) : Inv (State.resetWith c) where
  cfgLegal := hc
  dsLength := List.length_replicate
  digitLength := List.length_replicate
  segLength := List.length_replicate
  digitsFirst := assignedFirst_of_none_valid replicate_unassigned_valid
  segsFirst := assignedFirst_of_none_valid replicate_unassigned_valid
  dwRange := Nat.two_pow_pos _
  seqOk := rfl
  beforeConfig := fun _ =>
    ⟨rfl, assignedSlots_replicate_unassigned _, assignedSlots_replicate_unassigned _, rfl⟩

theorem Inv.withCmd {s : State} (hi : Inv s) (bs : List Byte) : Inv (withCmd bs s) := { hi with }

theorem Inv.withDs {s : State} (hi : Inv s) {ds : List Byte} (hlen : ds.length = s.ds.length) :
    Inv { s with ds := ds } := { hi with dsLength := hlen.trans hi.dsLength }

theorem Inv.latchDwell {s : State} (hi : Inv s) {n : Nat} (hn : n < 2 ^ s.cfg.dwellW) : Inv (latchDwell n s) :=
  { hi with dwRange := hn }

theorem Inv.construct {s : State} (hi : Inv s) (hq : s.seq = .idle) (dpins spins : List Pin) :
    Inv (construct dpins spins s) :=
  { hi with
    dsLength := List.length_replicate
    digitLength := (fillSlots_length ..).trans hi.digitLength
    segLength := (fillSlots_length ..).trans hi.segLength
    digitsFirst := assignedFirst_fillSlots ..
    segsFirst := assignedFirst_fillSlots ..
    seqOk := by rw [seqLegal, construct_seq, hq]
    beforeConfig := nofun }

theorem Inv.goto {s : State} (hi : Inv s) (hc : s.constructed = true) {q : Seq} (hq : seqLegal (goto q s) = true) :
    Inv (goto q s) :=
  { hi with
    seqOk := hq
    beforeConfig := fun hc' => absurd hc (by simpa using hc') }

theorem Inv.emit {s : State} (hi : Inv s) (hc : s.constructed = true) (e : Event) : Inv (emit e s) :=
  { hi with beforeConfig := fun hc' => absurd hc (by simpa using hc') }

/-- A command runs only after CONFIG (R99). -/
theorem Inv.constructed_of_running {s : State} (hi : Inv s) (hq : s.seq ≠ .idle) : s.constructed = true := by
  by_contra hc
  exact hq (hi.beforeConfig (by simpa using hc)).1

/-- The accept step of every command keeps the invariant. -/
theorem Inv.exec {s t : State} {i : Instr} (hi : Inv s) (hq : s.seq = .idle)
    (hdwell : ∀ dwell, i = .refresh dwell → dwell < 2 ^ s.cfg.dwellW) (h : exec i s = .next t) : Inv t := by
  rcases exec_next_setter h with ⟨dpins, spins, _, _, rfl⟩ | ⟨hsetter, _, rfl⟩ | ⟨dwell, hrefresh, hc, rfl⟩
  · exact (hi.construct hq dpins spins).goto rfl (seqLegal_configSeq ..)
  · rw [commandResult_setter_frame hsetter]
    exact hi.withDs (commandResult_setter_ds_length hsetter s)
  · exact (hi.latchDwell (hdwell dwell hrefresh)).goto hc (seqLegal_segSeq ..)

theorem Inv.step {s t : State} (hi : Inv s) (h : step s = .next t) : Inv t := by
  rcases step_cases h with ⟨_, _, rfl⟩ | ⟨_, hq, i, rest, hd, hexec⟩ | ⟨_, _, _, rfl⟩ | ⟨_, hq, e, q, hm, rfl⟩
  · exact (Inv.resetWith hi.cfgLegal).withCmd _
  · exact (hi.withCmd rest).exec hq (fun dwell hrefresh => decode_refresh_lt (hrefresh ▸ hd)) hexec
  · exact hi
  · have hc := hi.constructed_of_running hq
    exact (hi.goto hc (hm.seqLegal_goto hi.seqOk)).emit hc e

/-- Settles O18. -/
theorem structuralInvariantKept : Obligations.StructuralInvariantKept :=
  fun _ _ hi h => hi.step h

/-! No fault. -/

/-- In a running command the invariant names everything the next move reads: the pins and the pattern bit (R22, R35). -/
theorem Inv.exists_moves {s : State} (hi : Inv s) (hq : s.seq ≠ .idle) : ∃ e q, Moves s e q := by
  have hlegal := hi.seqOk
  unfold seqLegal at hlegal
  split at hlegal
  next h => exact absurd h hq
  next k pins h =>
    exact ⟨_, _, .cfg h (List.getElem?_eq_getElem (of_decide_eq_true hlegal))⟩
  next i h =>
    obtain ⟨p, hp⟩ := isAssigned_iff.mp hlegal
    exact ⟨_, _, .segOn h hp⟩
  next i j h =>
    obtain ⟨hseg, hdigit⟩ := Bool.and_eq_true_iff.mp hlegal
    obtain ⟨p, hp⟩ := isAssigned_iff.mp hseg
    obtain ⟨p', hp'⟩ := isAssigned_iff.mp hdigit
    obtain ⟨bit, hbit⟩ := readable_of_inv hi (j, p') (mem_assignedSlots.mpr hp') (i, p) (mem_assignedSlots.mpr hp)
    exact ⟨_, _, .drive h hp' hbit⟩
  next i h => exact ⟨_, _, .wait h⟩
  next i j h =>
    obtain ⟨p, hp⟩ := isAssigned_iff.mp (Bool.and_eq_true_iff.mp hlegal).2
    exact ⟨_, _, .off h hp⟩
  next i h =>
    obtain ⟨p, hp⟩ := isAssigned_iff.mp hlegal
    exact ⟨_, _, .segOff h hp⟩

/-- Settles O10: a reset and an accept step cannot fault, and in a running command there is always a move. -/
theorem noFaultUnderInvariant : Obligations.NoFaultUnderInvariant := by
  intro s hi f
  cases hr : s.resetReq with
  | true => rw [step_reset hr]; exact takeReset_ne_fault s f
  | false =>
    by_cases hq : s.seq = .idle
    · cases hd : decode s.cfg s.cmd with
      | command i rest => rw [step_accept hr hq hd]; exact exec_ne_fault i _ f
      | reserved b => rw [step_reserved hr hq hd]; exact nofun
      | incomplete => rw [step_wait hr hq hd]; exact nofun
    · obtain ⟨e, q, hm⟩ := hi.exists_moves hq
      rw [step_of_moves hr hm]
      exact nofun

/-! The reset state (R32). -/

theorem assignedSlots_resetWith (c : Config) :
    assignedSlots (State.resetWith c).segSlots = [] ∧ assignedSlots (State.resetWith c).digitSlots = [] :=
  ⟨assignedSlots_replicate_unassigned _, assignedSlots_replicate_unassigned _⟩

theorem drivenConfigured_resetWith (c : Config) : DrivenConfigured (State.resetWith c) := by
  obtain ⟨hseg, hdigit⟩ := assignedSlots_resetWith c
  constructor
  · rw [hseg, hdigit]; exact nofun
  · exact nofun

theorem lineInv_resetWith (c : Config) : LineInv (State.resetWith c) := by
  obtain ⟨hseg, hdigit⟩ := assignedSlots_resetWith c
  intro _
  constructor
  · rw [segsOff, hseg]; exact nofun
  · rw [digitsNotLow, hdigit]; exact nofun

/-- Settles O19. -/
theorem resetMeetsTheInvariants : Obligations.ResetMeetsTheInvariants :=
  ⟨fun c hc => ⟨Inv.resetWith hc, nofun, drivenConfigured_resetWith c, lineInv_resetWith c⟩,
    Inv.resetWith (by decide)⟩

end Sys2Proof.Machine
end

section
/-!
The dwell latch between two REFRESH commands (spec R27): no accept step but that of REFRESH reads or writes it.
-/
namespace Sys2Proof.Machine

/-- A REFRESH overwrites the dwell latch before anything reads it. -/
theorem exec_refresh_latchDwell (dwell n : Nat) (s : State) :
    exec (.refresh dwell) (latchDwell n s) = exec (.refresh dwell) s := rfl

theorem whenConstructed_latchDwell (n : Nat) (s : State) (k : Out) :
    whenConstructed (latchDwell n s) (mapNext (latchDwell n) k) = mapNext (latchDwell n) (whenConstructed s k) := by
  unfold whenConstructed
  rw [latchDwell_constructed]
  split <;> rfl

theorem whenNotConstructed_latchDwell (n : Nat) (s : State) (k : Out) :
    whenNotConstructed (latchDwell n s) (mapNext (latchDwell n) k) =
      mapNext (latchDwell n) (whenNotConstructed s k) := by
  unfold whenNotConstructed
  rw [latchDwell_constructed]
  split <;> rfl

/-- Every command but REFRESH passes the dwell latch through. -/
theorem exec_latchDwell {i : Instr} (hi : ∀ dwell, i ≠ .refresh dwell) (n : Nat) (s : State) :
    exec i (latchDwell n s) = mapNext (latchDwell n) (exec i s) := by
  cases i with
  | config dpins spins => exact whenNotConstructed_latchDwell n s (.next (goto _ (construct dpins spins s)))
  | setd position symbol =>
    rw [exec, execSetd, setDigit_comm (f := latchDwell n) (fun _ => rfl) (fun _ _ _ => rfl)]
    exact whenConstructed_latchDwell n s (.next _)
  | setds symbols =>
    rw [exec, execSetds, setDigitsFrom_comm (f := latchDwell n) (fun _ => rfl) (fun _ _ _ => rfl)]
    exact whenConstructed_latchDwell n s (.next _)
  | refresh dwell => exact absurd rfl (hi dwell)

/-- Settles O46. -/
theorem dwellLatchHasNoEffectBetweenRefreshes : Obligations.DwellLatchHasNoEffectBetweenRefreshes := by
  intro s n hq hr
  refine ⟨fun dwell => exec_refresh_latchDwell dwell n s, fun hd' => ?_⟩
  cases hd : decode s.cfg s.cmd with
  | command i rest =>
    have hi : ∀ dwell, i ≠ .refresh dwell := fun dwell h => hd' dwell rest (h ▸ hd)
    rw [step_accept hr hq hd, step_accept (s := latchDwell n s) hr hq hd]
    exact exec_latchDwell hi n (withCmd rest s)
  | reserved b => rw [step_reserved hr hq hd, step_reserved (s := latchDwell n s) hr hq hd]; rfl
  | incomplete => rw [step_wait hr hq hd, step_wait (s := latchDwell n s) hr hq hd]; rfl

end Sys2Proof.Machine
end

section
/-!
What a running command does not look at: the bytes on the command port (spec R48) and the identity of a pin (R36). Both are one rule: a
running command reads `seq`, the slots, `DS` and `dw`, and writes by `emit` and `goto` alone, so its step commutes with every map of
states that renames the pins in what is read and commutes with the two writes.
-/
namespace Sys2Proof.Machine

/-- `g` renames the pins by `f` in all that the step of a running command reads, and commutes with the writes of such a step. -/
structure Relabels (f : Pin → Pin) (g : State → State) : Prop where
  seq (s : State) : (g s).seq = renameSeq f s.seq
  resetReq (s : State) : (g s).resetReq = s.resetReq
  ds (s : State) : (g s).ds = s.ds
  dw (s : State) : (g s).dw = s.dw
  digitSlots (s : State) : (g s).digitSlots = s.digitSlots.map (renameSlot f)
  segSlots (s : State) : (g s).segSlots = s.segSlots.map (renameSlot f)
  emit (e : Event) (s : State) : emit (renameEvent f e) (g s) = g (emit e s)
  goto (q : Seq) (s : State) : goto (renameSeq f q) (g s) = g (goto q s)

/-! Renaming by the identity renames nothing. -/

@[simp] theorem renameSlot_id : renameSlot id = id := rfl

@[simp] theorem renameSeq_id (q : Seq) : renameSeq id q = q := by
  cases q with
  | cfg k pins => rw [renameSeq, List.map_id]
  | _ => rfl

@[simp] theorem renameEvent_id (e : Event) : renameEvent id e = e := by
  cases e <;> rfl

/-- Bytes sent to the command port rename no pin. -/
theorem hostSend_relabels (bs : List Byte) : Relabels id (hostSend bs) where
  seq s := (renameSeq_id s.seq).symm
  resetReq _ := rfl
  ds _ := rfl
  dw _ := rfl
  digitSlots s := by simp
  segSlots s := by simp
  emit e s := by rw [renameEvent_id]; rfl
  goto q s := by rw [renameSeq_id]; rfl

theorem renamePins_relabels (f : Pin → Pin) : Relabels f (renamePins f) where
  seq _ := rfl
  resetReq _ := rfl
  ds _ := rfl
  dw _ := rfl
  digitSlots _ := rfl
  segSlots _ := rfl
  emit e s := by simp [renamePins, Machine.emit]
  goto _ _ := rfl

/-! The slot operations read a pin only to hand it on. -/

theorem firstAssigned_map_renameSlot (f : Pin → Pin) (slots : List Slot) : ∀ n,
    firstAssigned (slots.map (renameSlot f)) n = firstAssigned slots n := by
  induction slots with
  | nil => intro n; rfl
  | cons sl sls ih => intro n; rw [List.map_cons, firstAssigned, firstAssigned, ih]; rfl

@[simp] theorem nextAssigned_map_renameSlot (f : Pin → Pin) (slots : List Slot) (k : Nat) :
    nextAssigned (slots.map (renameSlot f)) k = nextAssigned slots k := by
  rw [nextAssigned, ← List.map_drop, firstAssigned_map_renameSlot]; rfl

theorem withPin_map_renameSlot {f : Pin → Pin} {g : State → State} {h h' : Pin → Out}
    (hpin : ∀ p, h' (f p) = mapNext g (h p)) (slots : List Slot) (k : Nat) :
    withPin (slots.map (renameSlot f)) k h' = mapNext g (withPin slots k h) := by
  unfold withPin
  rw [List.getElem?_map]
  rcases slots[k]? with _ | ⟨_ | _, p⟩
  · rfl
  · rfl
  · exact hpin p

theorem fillSlots_map (f : Pin → Pin) (slots : List Slot) : ∀ pins,
    fillSlots (slots.map (renameSlot f)) (pins.map f) = (fillSlots slots pins).map (renameSlot f) := by
  induction slots with
  | nil => intro pins; rfl
  | cons sl sls ih =>
    intro pins
    cases pins with
    | nil => exact congrArg (_ :: ·) (ih [])
    | cons p ps => exact congrArg (_ :: ·) (ih ps)

/-! The step of a running command, one rule per `seq` value (R73, R86 to R90). -/

theorem renameSeq_configSeq (f : Pin → Pin) (k : Nat) (pins : List Pin) :
    renameSeq f (configSeq k pins) = configSeq k (pins.map f) := by
  unfold configSeq
  rw [List.length_map]
  split <;> rfl

namespace Relabels

variable {f : Pin → Pin} {g : State → State} (hg : Relabels f g)
include hg

theorem segSeq (s : State) (i : Nat) : segSeq (g s) i = renameSeq f (segSeq s i) := by
  rw [Machine.segSeq, Machine.segSeq, hg.segSlots, nextAssigned_map_renameSlot]
  split <;> rfl

theorem driveSeq (s : State) (i j : Nat) : driveSeq (g s) i j = renameSeq f (driveSeq s i j) := by
  rw [Machine.driveSeq, Machine.driveSeq, hg.digitSlots, nextAssigned_map_renameSlot]
  split <;> rfl

theorem offSeq (s : State) (i j : Nat) : offSeq (g s) i j = renameSeq f (offSeq s i j) := by
  rw [Machine.offSeq, Machine.offSeq, hg.digitSlots, nextAssigned_map_renameSlot]
  split <;> rfl

theorem readDsBit (s : State) (j i : Nat) : readDsBit (g s) j i = readDsBit s j i := by
  rw [Machine.readDsBit, Machine.readDsBit, hg.ds]

/-- One event and the move after it. -/
theorem next_goto_emit (e : Event) (q : Seq) (s : State) :
    .next (Machine.goto (renameSeq f q) (Machine.emit (renameEvent f e) (g s))) =
      mapNext g (.next (Machine.goto q (Machine.emit e s))) := by
  rw [hg.emit, hg.goto]; rfl

theorem seqCfg (k : Nat) (pins : List Pin) (s : State) :
    seqCfg k (pins.map f) (g s) = mapNext g (seqCfg k pins s) := by
  unfold Machine.seqCfg
  rw [List.getElem?_map, ← renameSeq_configSeq]
  cases pins[k]? with
  | none => rfl
  | some p => exact hg.next_goto_emit (.cfgOut p) _ s

theorem seqSegOn (i : Nat) (s : State) : seqSegOn i (g s) = mapNext g (seqSegOn i s) := by
  unfold Machine.seqSegOn
  rw [hg.segSlots, hg.driveSeq]
  exact withPin_map_renameSlot (fun p => hg.next_goto_emit (.setOut p .high) _ s) _ _

theorem seqDrive (i j : Nat) (s : State) : seqDrive i j (g s) = mapNext g (seqDrive i j s) := by
  unfold Machine.seqDrive
  rw [hg.digitSlots, hg.driveSeq, hg.readDsBit]
  refine withPin_map_renameSlot (fun p => ?_) _ _
  cases Machine.readDsBit s j i with
  | none => rfl
  | some bit => exact hg.next_goto_emit (.setOut p (driveLevel bit)) _ s

theorem seqWait (i : Nat) (s : State) : seqWait i (g s) = mapNext g (seqWait i s) := by
  unfold Machine.seqWait
  rw [hg.dw, hg.offSeq]
  exact hg.next_goto_emit (.wait s.dw) _ s

theorem seqOff (i j : Nat) (s : State) : seqOff i j (g s) = mapNext g (seqOff i j s) := by
  unfold Machine.seqOff
  rw [hg.digitSlots, hg.offSeq]
  exact withPin_map_renameSlot (fun p => hg.next_goto_emit (.setOut p .high) _ s) _ _

theorem seqSegOff (i : Nat) (s : State) : seqSegOff i (g s) = mapNext g (seqSegOff i s) := by
  unfold Machine.seqSegOff
  rw [hg.segSlots, hg.segSeq]
  exact withPin_map_renameSlot (fun p => hg.next_goto_emit (.setOut p .low) _ s) _ _

theorem sequencerStep {s : State} (hq : s.seq ≠ .idle) (ex : Instr → State → Out) :
    sequencerStep ex (g s) = mapNext g (sequencerStep ex s) := by
  unfold Machine.sequencerStep
  rw [hg.seq]
  cases h : s.seq with
  | idle => exact absurd h hq
  | cfg k pins => exact hg.seqCfg k pins s
  | segOn i => exact hg.seqSegOn i s
  | drive i j => exact hg.seqDrive i j s
  | wait i => exact hg.seqWait i s
  | off i j => exact hg.seqOff i j s
  | segOff i => exact hg.seqSegOff i s

/-- While a command runs, a reset is refused on both sides (R124). -/
theorem takeReset {s : State} (hq : s.seq ≠ .idle) : takeReset (g s) = mapNext g (takeReset s) := by
  unfold Machine.takeReset
  rw [hg.seq]
  cases h : s.seq with
  | idle => exact absurd h hq
  | _ => rfl

theorem step {s : State} (hq : s.seq ≠ .idle) : step (g s) = mapNext g (step s) := by
  unfold Machine.step stepWith
  rw [hg.resetReq]
  split
  · exact hg.takeReset hq
  · exact hg.sequencerStep hq exec

end Relabels

/-- Settles O13: bytes on the command port are a relabelling that renames no pin. -/
theorem runningCommandIgnoresCommandPort : Obligations.RunningCommandIgnoresCommandPort :=
  fun _ bs hq => (hostSend_relabels bs).step hq

/-! The accept step under a renaming of the pins (R36, R76). -/

theorem whenConstructed_mapNext {g : State → State} {s : State} (hg : (g s).constructed = s.constructed) (k : Out) :
    whenConstructed (g s) (mapNext g k) = mapNext g (whenConstructed s k) := by
  unfold whenConstructed
  rw [hg]
  split <;> rfl

theorem whenNotConstructed_mapNext {g : State → State} {s : State} (hg : (g s).constructed = s.constructed) (k : Out) :
    whenNotConstructed (g s) (mapNext g k) = mapNext g (whenNotConstructed s k) := by
  unfold whenNotConstructed
  rw [hg]
  split <;> rfl

theorem digitCount_map (f : Pin → Pin) (c : Config) (dpins : List Pin) :
    digitCount c (dpins.map f) = digitCount c dpins := by
  rw [digitCount, List.length_map, digitCount]

theorem segCount_map (f : Pin → Pin) (spins : List Pin) : segCount (spins.map f) = segCount spins := by
  rw [segCount, List.length_map, segCount]

theorem groupPins_map (f : Pin → Pin) (c : Config) (stored : Nat) (pins : List Pin) :
    groupPins c stored (pins.map f) = (groupPins c stored pins).map f := by
  unfold groupPins
  split <;> simp

theorem configPins_map (f : Pin → Pin) (c : Config) (dpins spins : List Pin) :
    configPins c (dpins.map f) (spins.map f) = (configPins c dpins spins).map f := by
  unfold configPins
  rw [digitCount_map, segCount_map, groupPins_map, groupPins_map]
  cases c.groupOrder <;> exact List.map_append.symm

/-- The register writes of CONFIG; a slot left unassigned keeps its renamed byte (log entry 4). -/
theorem construct_renamePins (f : Pin → Pin) (dpins spins : List Pin) (s : State) :
    construct (dpins.map f) (spins.map f) (renamePins f s) = renamePins f (construct dpins spins s) := by
  have hdigit := fillSlots_map f s.digitSlots (dpins.take (digitCount s.cfg dpins))
  have hseg := fillSlots_map f s.segSlots (spins.take (segCount spins))
  simp only [construct, renamePins, digitCount_map, segCount_map, ← List.map_take, hdigit, hseg]

theorem execConfig_renamePins (f : Pin → Pin) (dpins spins : List Pin) (s : State) :
    execConfig (dpins.map f) (spins.map f) (renamePins f s) = mapNext (renamePins f) (execConfig dpins spins s) := by
  have hpins : configPins (renamePins f s).cfg (dpins.map f) (spins.map f) = (configPins s.cfg dpins spins).map f :=
    configPins_map f s.cfg dpins spins
  rw [execConfig, hpins, ← renameSeq_configSeq, construct_renamePins, (renamePins_relabels f).goto]
  exact whenNotConstructed_mapNext (g := renamePins f) rfl (.next _)

theorem execRefresh_renamePins (f : Pin → Pin) (dwell : Nat) (s : State) :
    execRefresh dwell (renamePins f s) = mapNext (renamePins f) (execRefresh dwell s) := by
  have hlatch : latchDwell dwell (renamePins f s) = renamePins f (latchDwell dwell s) := rfl
  rw [execRefresh, (renamePins_relabels f).segSeq, hlatch, (renamePins_relabels f).goto]
  exact whenConstructed_mapNext (g := renamePins f) rfl (.next _)

theorem exec_renamePins (f : Pin → Pin) (i : Instr) (s : State) :
    exec (renameInstr f i) (renamePins f s) = mapNext (renamePins f) (exec i s) := by
  cases i with
  | config dpins spins => exact execConfig_renamePins f dpins spins s
  | setd position symbol =>
    rw [renameInstr, exec, execSetd, setDigit_comm (f := renamePins f) (fun _ => rfl) (fun _ _ _ => rfl)]
    exact whenConstructed_mapNext (g := renamePins f) rfl (.next _)
  | setds symbols =>
    rw [renameInstr, exec, execSetds, setDigitsFrom_comm (f := renamePins f) (fun _ => rfl) (fun _ _ _ => rfl)]
    exact whenConstructed_mapNext (g := renamePins f) rfl (.next _)
  | refresh dwell => exact execRefresh_renamePins f dwell s

/-- Settles O47. -/
theorem pinIdentifiersAreOpaque : Obligations.PinIdentifiersAreOpaque :=
  fun f s => ⟨fun i => exec_renamePins f i s, (renamePins_relabels f).step⟩

end Sys2Proof.Machine
end

section
/-!
The transport, both ways at once (spec R60 to R65): each operand reader answers a command exactly on the operand bytes of a
well-formed command of its format, so the decoder inverts the encoder. That a command cut short is incomplete follows from the two
directions: a command read from the cut bytes would be the whole one.
-/
namespace Sys2Proof

/-- A count byte and a list of that length (R60, R62): the count is the length, which a byte can hold. -/
theorem takeBytes_count_eq_some {n : Byte} {bs xs rest : List Byte} :
    takeBytes n.toNat bs = some (xs, rest) ↔ xs.length ≤ 255 ∧ n = BitVec.ofNat 8 xs.length ∧ bs = xs ++ rest := by
  rw [takeBytes_eq_some, ← and_assoc]
  refine and_congr_left fun _ => ⟨fun hn => ⟨by omega, by simp [hn]⟩, ?_⟩
  rintro ⟨hlen, rfl⟩
  rw [BitVec.toNat_ofNat]
  omega

/-- `bs` begins with the operand bytes of the well-formed command `i`, of format `f`, and `rest` is what follows them. -/
def StartsWithOperands (c : Config) (f : Format) (bs : List Byte) (i : Instr) (rest : List Byte) : Prop :=
  formatOfInstr i = f ∧ i.wf c = true ∧ bs = operandBytes c i ++ rest

theorem decodeCfg_eq_command {c : Config} {bs rest : List Byte} {i : Instr} :
    decodeCfg bs = .command i rest ↔ StartsWithOperands c .cfg bs i rest := by
  constructor
  · intro h
    unfold decodeCfg at h
    split at h
    next nd ns bs =>
      split at h
      next => cases h
      next dpins bs' hdpins =>
        split at h
        next => cases h
        next spins _ hspins =>
          cases h
          obtain ⟨hnd, rfl, rfl⟩ := takeBytes_count_eq_some.mp hdpins
          obtain ⟨hns, rfl, rfl⟩ := takeBytes_count_eq_some.mp hspins
          exact ⟨rfl, by simp [Instr.wf, hnd, hns], by simp [operandBytes]⟩
    next => cases h
  · rintro ⟨hf, hwf, rfl⟩
    cases i with
    | config dpins spins =>
      obtain ⟨hnd, hns⟩ : dpins.length ≤ 255 ∧ spins.length ≤ 255 := by simpa [Instr.wf] using hwf
      have hdpins := takeBytes_count_eq_some.mpr ⟨hnd, rfl, List.append_assoc dpins spins rest⟩
      have hspins := takeBytes_count_eq_some.mpr ⟨hns, rfl, Eq.refl (spins ++ rest)⟩
      simp only [operandBytes, List.cons_append, decodeCfg, hdpins, hspins]
    | setd | setds | refresh => cases hf

theorem decodeSd_eq_command {c : Config} {bs rest : List Byte} {i : Instr} :
    decodeSd bs = .command i rest ↔ StartsWithOperands c .sd bs i rest := by
  constructor
  · intro h
    unfold decodeSd at h
    split at h
    next => cases h; exact ⟨rfl, rfl, rfl⟩
    next => cases h
  · rintro ⟨hf, -, rfl⟩
    cases i with
    | setd => rfl
    | config | setds | refresh => cases hf

theorem decodeSds_eq_command {c : Config} {bs rest : List Byte} {i : Instr} :
    decodeSds bs = .command i rest ↔ StartsWithOperands c .sds bs i rest := by
  constructor
  · intro h
    unfold decodeSds at h
    split at h
    next n bs =>
      split at h
      next => cases h
      next symbols _ hsymbols =>
        cases h
        obtain ⟨hn, rfl, rfl⟩ := takeBytes_count_eq_some.mp hsymbols
        exact ⟨rfl, by simp [Instr.wf, hn], rfl⟩
    next => cases h
  · rintro ⟨hf, hwf, rfl⟩
    cases i with
    | setds symbols =>
      have hn : symbols.length ≤ 255 := by simpa [Instr.wf] using hwf
      have hsymbols := takeBytes_count_eq_some.mpr ⟨hn, rfl, Eq.refl (symbols ++ rest)⟩
      simp only [operandBytes, List.cons_append, decodeSds, hsymbols]
    | config | setd | refresh => cases hf

theorem decodeRf_eq_command {c : Config} {bs rest : List Byte} {i : Instr} :
    decodeRf c bs = .command i rest ↔ StartsWithOperands c .rf bs i rest := by
  constructor
  · intro h
    unfold decodeRf at h
    split at h
    next => cases h
    next operand _ htake =>
      cases h
      obtain ⟨hlen, rfl⟩ := takeBytes_eq_some.mp htake
      have hlt : leNat operand < 2 ^ c.dwellW := by rw [Config.dwellW, ← hlen]; exact leNat_lt operand
      exact ⟨rfl, by simp [Instr.wf, hlt], by rw [operandBytes, ← hlen, leBytes_leNat]⟩
  · rintro ⟨hf, hwf, rfl⟩
    cases i with
    | refresh dwell =>
      have hlt : dwell < 2 ^ (8 * c.dwellBytes) := of_decide_eq_true hwf
      have htake := takeBytes_eq_some.mpr
        ⟨leBytes_length c.dwellBytes dwell, Eq.refl (leBytes c.dwellBytes dwell ++ rest)⟩
      simp only [operandBytes, decodeRf, htake, leNat_leBytes _ _ hlt]
    | config | setd | setds => cases hf

/-- The operand reader of a format (R60). -/
def decodeOperands (c : Config) : Format → List Byte → Decoded
  | .cfg, bs => decodeCfg bs
  | .sd, bs => decodeSd bs
  | .sds, bs => decodeSds bs
  | .rf, bs => decodeRf c bs

theorem decode_opcodeByte (c : Config) (f : Format) (bs : List Byte) :
    decode c (opcodeByte f :: bs) = decodeOperands c f bs := by
  cases f <;> rfl

theorem decode_of_formatOf_eq_none {b : Byte} (hb : formatOf b = none) (c : Config) (bs : List Byte) :
    decode c (b :: bs) = .reserved b := by
  simp only [decode, hb]

theorem decodeOperands_eq_command {c : Config} {f : Format} {bs rest : List Byte} {i : Instr} :
    decodeOperands c f bs = .command i rest ↔ StartsWithOperands c f bs i rest := by
  cases f with
  | cfg => exact decodeCfg_eq_command
  | sd => exact decodeSd_eq_command
  | sds => exact decodeSds_eq_command
  | rf => exact decodeRf_eq_command

/-- After a listed opcode byte the stream is never refused: the operands are there, or the command waits (R64, R65). -/
theorem decodeOperands_ne_reserved (c : Config) (f : Format) (bs : List Byte) (b : Byte) :
    decodeOperands c f bs ≠ .reserved b := by
  cases f with
  | cfg =>
    rw [decodeOperands]; unfold decodeCfg
    split
    · split
      · exact nofun
      · split <;> exact nofun
    · exact nofun
  | sd =>
    rw [decodeOperands]; unfold decodeSd
    split <;> exact nofun
  | sds =>
    rw [decodeOperands]; unfold decodeSds
    split
    · split <;> exact nofun
    · exact nofun
  | rf =>
    rw [decodeOperands]; unfold decodeRf
    split <;> exact nofun

/-- The decoder reads a command exactly where its encoding stands (R60, R63). -/
theorem decode_eq_command {c : Config} {bs rest : List Byte} {i : Instr} :
    decode c bs = .command i rest ↔ i.wf c = true ∧ bs = encode c i ++ rest := by
  constructor
  · intro h
    cases bs with
    | nil => cases h
    | cons b bs =>
      cases hb : formatOf b with
      | none => rw [decode_of_formatOf_eq_none hb] at h; cases h
      | some f =>
        obtain rfl := formatOf_eq_some.mp hb
        rw [decode_opcodeByte] at h
        obtain ⟨rfl, hwf, rfl⟩ := decodeOperands_eq_command.mp h
        exact ⟨hwf, rfl⟩
  · rintro ⟨hwf, rfl⟩
    rw [encode, List.cons_append, decode_opcodeByte]
    exact decodeOperands_eq_command.mpr ⟨rfl, hwf, rfl⟩

theorem decode_eq_reserved {c : Config} {bs : List Byte} {b : Byte} :
    decode c bs = .reserved b ↔ formatOf b = none ∧ ∃ rest, bs = b :: rest := by
  constructor
  · intro h
    cases bs with
    | nil => cases h
    | cons b' bs =>
      cases hb : formatOf b' with
      | none =>
        rw [decode_of_formatOf_eq_none hb] at h
        cases h
        exact ⟨hb, bs, rfl⟩
      | some f =>
        obtain rfl := formatOf_eq_some.mp hb
        rw [decode_opcodeByte] at h
        exact absurd h (decodeOperands_ne_reserved c f bs b)
  · rintro ⟨hb, rest, rfl⟩
    exact decode_of_formatOf_eq_none hb c rest

/-- The opcode bytes are 1 to 4 (R61). -/
theorem formatOf_eq_none_iff_toNat {b : Byte} : formatOf b = none ↔ b.toNat = 0 ∨ 5 ≤ b.toNat := by
  simp only [formatOf_eq_none, ne_eq, BitVec.toNat_eq]
  constructor
  · intro h
    have h1 : b.toNat ≠ 1 := h .cfg
    have h2 : b.toNat ≠ 2 := h .sd
    have h3 : b.toNat ≠ 3 := h .sds
    have h4 : b.toNat ≠ 4 := h .rf
    omega
  · intro h f
    cases f <;> simp only [opcodeByte, BitVec.toNat_ofNat] <;> omega

/-- A command cut short decodes as incomplete (R65). A command read from the cut bytes would be the one encoded, with the bytes
cut off left over; a reserved byte would be its opcode byte. -/
theorem decode_take_encode {c : Config} {i : Instr} {n : Nat} (hwf : i.wf c = true) (hn : n < (encode c i).length) :
    decode c ((encode c i).take n) = .incomplete := by
  have hcut : (encode c i).take n ++ (encode c i).drop n = encode c i := List.take_append_drop ..
  cases h : decode c ((encode c i).take n) with
  | command j rest =>
    obtain ⟨hj, hpre⟩ := decode_eq_command.mp h
    have hread : decode c (encode c i) = .command j (rest ++ (encode c i).drop n) :=
      decode_eq_command.mpr ⟨hj, by rw [← List.append_assoc, ← hpre, hcut]⟩
    have hwhole : decode c (encode c i) = .command i [] := decode_eq_command.mpr ⟨hwf, by simp⟩
    have hnone : (encode c i).drop n = [] := by
      rw [hwhole] at hread
      have hrest : [] = rest ++ (encode c i).drop n := (Decoded.command.inj hread).2
      exact (List.append_eq_nil_iff.mp hrest.symm).2
    exact absurd (List.drop_eq_nil_iff.mp hnone) (by omega)
  | reserved b =>
    obtain ⟨hb, rest, hpre⟩ := decode_eq_reserved.mp h
    rw [hpre, encode, List.cons_append] at hcut
    rw [(List.cons.inj hcut).1, formatOf_opcodeByte] at hb
    cases hb
  | incomplete => rfl

/-- Settles O1, the encoder's side of `decode_eq_command`. -/
theorem encodedCommandDecodesBack : Obligations.EncodedCommandDecodesBack :=
  fun _ _ _ hwf => decode_eq_command.mpr ⟨hwf, rfl⟩

/-- Settles O2, the decoder's side of `decode_eq_command`. -/
theorem decodedCommandIsItsEncoding : Obligations.DecodedCommandIsItsEncoding :=
  fun _ _ _ _ => decode_eq_command.mp

/-- Settles O3. -/
theorem reservedExactlyUnlistedOpcodes : Obligations.ReservedExactlyUnlistedOpcodes := by
  intro c bs b
  rw [decode_eq_reserved, formatOf_eq_none_iff_toNat]

/-- Settles O4. -/
theorem truncatedCommandIsIncomplete : Obligations.TruncatedCommandIsIncomplete :=
  fun _ _ _ => decode_take_encode

end Sys2Proof
end

section
/-!
The host's side of the transport: a command that arrives in two parts (spec R65, R123), the expansion of SETDS into SETD
commands (R59, R79), and the assembler's two forms of a line (R59).
-/
namespace Sys2Proof.Machine

/-- Settles O8: the first part alone is incomplete, and with the second part the port holds the whole encoding. -/
theorem incompleteCommandWaitsThenRuns : Obligations.IncompleteCommandWaitsThenRuns := by
  intro s i n hr hq hwf hn hcmd
  refine ⟨step_wait hr hq (by rw [hcmd]; exact decode_take_encode hwf hn), ?_, ?_⟩
  · rintro hpos ⟨-, hempty⟩
    have hlen : (List.take n (encode s.cfg i)).length = 0 := by rw [← hcmd, hempty]; rfl
    rw [List.length_take] at hlen
    omega
  · have hwhole : (hostSend ((encode s.cfg i).drop n) s).cmd = encode s.cfg i := by
      rw [hostSend_cmd, hcmd, List.take_append_drop]
    exact step_accept hr hq (decode_eq_command.mpr ⟨hwf, by rw [hwhole, List.append_nil]; rfl⟩)

theorem exec_setd {s : State} (hc : s.constructed = true) (position symbol : Byte) :
    exec (.setd position symbol) s = .next (setDigit position.toNat symbol s) :=
  exec_setter (by simp) (by simp) hc

theorem exec_setds {s : State} (hc : s.constructed = true) (symbols : List Byte) :
    exec (.setds symbols) s = .next (setDigitsFrom 0 symbols s) :=
  exec_setter (by simp) (by simp) hc

/-- The expansion from position k on, while a byte can name the positions, is the loop of SETDS from k on (R59, R79). -/
theorem execAll_setdEach (ys : List Byte) : ∀ (k : Nat) (s : State), s.constructed = true → k + ys.length ≤ 256 →
    execAll (setdEach k ys) s = .next (setDigitsFrom k ys s) := by
  induction ys with
  | nil => intros; rfl
  | cons y ys ih =>
    intro k s hc hk
    rw [List.length_cons] at hk
    have hposition : (BitVec.ofNat 8 k).toNat = k := by rw [BitVec.toNat_ofNat]; omega
    have hc' : (setDigit k y s).constructed = true := by rw [setDigit_frame]; exact hc
    rw [setdEach, execAll, exec_setd hc, hposition]
    exact ih (k + 1) _ hc' (by omega)

/-- Settles O29. -/
theorem setdsActsAsSetdSequence : Obligations.SetdsActsAsSetdSequence := by
  intro s symbols hc hlen
  rw [exec_setds hc, expandPseudo, execAll_setdEach symbols 0 s hc (by omega)]

/-- Settles O6: eleven lines, each read by running the assembler. -/
theorem assemblerReadsBothSyntaxes : Obligations.AssemblerReadsBothSyntaxes := by
  unfold Obligations.AssemblerReadsBothSyntaxes
  decide

end Sys2Proof.Machine
end

section
/-!
The Decoder ROM, one equation per group of entries (spec R66, R68).
-/
namespace Sys2Proof.Machine

/-- Entries 0 to 9 are the parameter's glyphs, zero-extended. -/
theorem decodeSymbol_digit (c : Config) {sym : Symbol} (h : sym.val < 10) :
    decodeSymbol c sym = (c.digitGlyphs[sym.val]).setWidth 8 := by
  rw [decodeSymbol, romRead, dif_pos h]

theorem decodeSymbol_blank (c : Config) {sym : Symbol} (hlo : 10 ≤ sym.val) (hhi : sym.val ≤ 16) :
    decodeSymbol c sym = 0x00#8 := by
  rw [decodeSymbol, romRead, dif_neg (by omega), if_neg (by omega)]

theorem decodeSymbol_dash (c : Config) {sym : Symbol} (h : sym.val = 17) : decodeSymbol c sym = 0x40#8 := by
  rw [decodeSymbol, romRead, dif_neg (by omega), if_pos h]

/-- Zero-extension keeps a glyph's value. -/
theorem decodeSymbol_digit_toNat (c : Config) {sym : Symbol} (h : sym.val < 10) :
    (decodeSymbol c sym).toNat = (c.digitGlyphs[sym.val]).toNat := by
  rw [decodeSymbol_digit c h, BitVec.toNat_setWidth_of_le (by decide)]

/-- An entry's bit 7 is its top bit, and it is 0. -/
theorem decodeSymbol_le_127 (c : Config) (sym : Symbol) : (decodeSymbol c sym).toNat ≤ 127 := by
  have hmsb : (decodeSymbol c sym).msb = false := decodeSymbol_bit7 c sym
  have hlt : 2 * (decodeSymbol c sym).toNat < 2 ^ 8 := BitVec.msb_eq_false_iff_two_mul_lt.mp hmsb
  omega

/-- Settles O51: the bound by bit 7, the entries by their equations. -/
theorem romEntriesForEveryParameter : Obligations.RomEntriesForEveryParameter := by
  intro c sym
  exact ⟨decodeSymbol_le_127 c sym, decodeSymbol_blank c, decodeSymbol_dash c, decodeSymbol_digit_toNat c⟩

end Sys2Proof.Machine
end

section
/-!
CONFIG (spec 41_construction.md): its accept step writes the registers (R71, R72, R74), its event list follows the two parameters
(R72, R73), and its small steps emit that list one event at a time (R73).
-/
namespace Sys2Proof.Machine

/-! The event list. Clamping a count to the group's length (R72) takes no other pins than the capacity itself does. -/

theorem take_digitCount (c : Config) (dpins : List Pin) : dpins.take (digitCount c dpins) = dpins.take c.numDigits := by
  rw [digitCount, Nat.min_comm, ← List.take_eq_take_min]

theorem take_segCount (spins : List Pin) : spins.take (segCount spins) = spins.take maxSeg := by
  rw [segCount, Nat.min_comm, ← List.take_eq_take_min]

theorem groupPins_stored {c : Config} (hx : c.extrasConfigured = false) (stored : Nat) (pins : List Pin) :
    groupPins c stored pins = pins.take stored := by
  simp [groupPins, hx]

theorem groupPins_extras {c : Config} (hx : c.extrasConfigured = true) (stored : Nat) (pins : List Pin) :
    groupPins c stored pins = pins := by
  simp [groupPins, hx]

theorem configPins_digitsFirst {c : Config} (hg : c.groupOrder = .digitsFirst) (dpins spins : List Pin) :
    configPins c dpins spins = groupPins c (digitCount c dpins) dpins ++ groupPins c (segCount spins) spins := by
  simp only [configPins, hg]

theorem configPins_segmentsFirst {c : Config} (hg : c.groupOrder = .segmentsFirst) (dpins spins : List Pin) :
    configPins c dpins spins = groupPins c (segCount spins) spins ++ groupPins c (digitCount c dpins) dpins := by
  simp only [configPins, hg]

/-- Settles O24: the order of the groups by one parameter, the pins of each by the other. -/
theorem configEventListByParameters : Obligations.ConfigEventListByParameters := by
  intro c dpins spins
  refine ⟨fun hg hx => ?_, fun hg hx => ?_, fun hg hx => ?_, fun hg hx => ?_⟩
  · rw [configPins_digitsFirst hg, groupPins_stored hx, groupPins_stored hx, take_digitCount, take_segCount]
  · rw [configPins_digitsFirst hg, groupPins_extras hx, groupPins_extras hx]
  · rw [configPins_segmentsFirst hg, groupPins_stored hx, groupPins_stored hx, take_digitCount, take_segCount]
  · rw [configPins_segmentsFirst hg, groupPins_extras hx, groupPins_extras hx]

/-! The accept step. -/

theorem exec_config {s : State} (hc : s.constructed = false) (dpins spins : List Pin) :
    exec (.config dpins spins) s =
      .next (goto (configSeq 0 (configPins s.cfg dpins spins)) (construct dpins spins s)) := by
  simp [exec, execConfig, whenNotConstructed, hc]

theorem configSeq_zero (pins : List Pin) : configSeq 0 pins = if pins = [] then .idle else .cfg 0 pins := by
  cases pins <;> simp [configSeq]

/-- A slot within the array holds the pin supplied for it, when the list is cut at the array's length (R72). -/
theorem fillSlots_take_supplied {slots : List Slot} {pins : List Pin} {n k : Nat} {p : Pin} (hlen : slots.length = n)
    (hk : k < n) (hp : pins[k]? = some p) : (fillSlots slots (pins.take n))[k]? = some ⟨true, p⟩ := by
  have hslot : slots[k]? = some slots[k] := List.getElem?_eq_getElem (by omega)
  rw [fillSlots_getElem?, hslot, List.getElem?_take_of_lt hk, hp]

/-- A slot beyond the supplied pins is unassigned (R72). -/
theorem isAssigned_fillSlots_of_le {slots : List Slot} {pins : List Pin} {k : Nat} (hk : pins.length ≤ k) :
    isAssigned (fillSlots slots pins) k = false := by
  rw [Bool.eq_false_iff]
  intro h
  obtain ⟨p, hp⟩ := isAssigned_iff.mp h
  have hsupplied : pins[k]? = some p := mem_assignedSlots_fillSlots (g := (k, p)) (mem_assignedSlots.mpr hp)
  rw [List.getElem?_eq_none hk] at hsupplied
  cases hsupplied

/-- Settles O23. -/
theorem configStoresPinAssignment : Obligations.ConfigStoresPinAssignment := by
  intro s dpins spins hc _ hdigit hseg
  refine ⟨_, exec_config hc dpins spins, rfl, ?_, ?_, fun k p hk hp => ?_, fun k hk => ?_, fun k p hk hp => ?_,
    fun k hk => ?_, rfl, configSeq_zero _, rfl, rfl, rfl, rfl, rfl⟩
  · simpa using hdigit
  · simpa using hseg
  · rw [goto_digitSlots, construct_digitSlots, take_digitCount]
    exact fillSlots_take_supplied hdigit hk hp
  · exact isAssigned_fillSlots_of_le ((List.length_take_le' ..).trans hk)
  · rw [goto_segSlots, construct_segSlots, take_segCount]
    exact fillSlots_take_supplied hseg hk hp
  · exact isAssigned_fillSlots_of_le ((List.length_take_le' ..).trans hk)

/-! The blank display. -/

/-- A pattern with no bit set drives its digit line `HIGH` in every window (R83). -/
theorem lvl_of_blank {s : State} {j : Nat} (hblank : ∀ b, s.ds[j]? = some b → b = 0x00#8) (i : Nat) :
    lvl s i j = .high := by
  cases hbit : readDsBit s j i with
  | none => simp [lvl, hbit, driveLevel]
  | some bit =>
    obtain ⟨-, b, hb, rfl⟩ := readDsBit_eq_some.mp hbit
    simp [lvl, hbit, hblank b hb, driveLevel]

/-- With every pattern blank the `DRIVE` events of a window are all `HIGH` (R83). -/
theorem mem_driveEvents_of_blank {s : State} (hblank : ∀ b ∈ s.ds, b = 0x00#8) {i : Nat} {e : Event}
    (he : e ∈ driveEvents s i) : ∃ p, e = .setOut p .high := by
  obtain ⟨d, -, rfl⟩ := List.mem_map.mp he
  rw [lvl_of_blank fun b hb => hblank b (List.mem_of_getElem? hb)]
  exact ⟨d.2, rfl⟩

theorem construct_ds_blank (dpins spins : List Pin) (s : State) :
    (construct dpins spins s).ds = List.replicate s.cfg.numDigits 0x00#8 := by
  rw [construct_ds, decodeSymbol_blank s.cfg (by decide) (by decide)]

/-- Settles O25: the Display State after the accept step is 0x00 throughout. -/
theorem configLeavesEveryDigitBlank : Obligations.ConfigLeavesEveryDigitBlank := by
  intro s dpins spins hc
  refine ⟨_, exec_config hc dpins spins, ?_, fun j hj => ?_, fun i e he => ?_⟩
  · rw [goto_ds, construct_ds_blank, List.length_replicate]
  · rw [goto_ds, construct_ds_blank, List.getElem?_replicate_of_lt hj]
  · refine mem_driveEvents_of_blank (fun b hb => ?_) he
    rw [goto_ds, construct_ds_blank] at hb
    exact List.eq_of_mem_replicate hb

/-! The run of the event list. -/

/-- A run that ends in `IDLE` is in `IDLE` after its last event and at no step before it. -/
theorem Emits.idle_iff {u t : State} {es : List Event} (h : Emits u es t) (ht : t.seq = .idle) {m : Nat}
    (hm : m ≤ es.length) :
    ∃ v, run m u = .next v ∧ v.trace = u.trace ++ es.take m ∧ (v.seq = .idle ↔ m = es.length) := by
  obtain ⟨hend, hmid⟩ := h
  obtain ⟨v, hrun, htrace, hbusy⟩ := hmid m hm
  refine ⟨v, hrun, htrace, fun hidle => ?_, fun hlast => ?_⟩
  · by_contra hne
    exact hbusy (by omega) hidle
  · rw [hlast, hend] at hrun
    cases hrun
    exact ht

/-- After its accept step a CONFIG emits its event list and stands in its one-step form (R71, R73). -/
theorem emits_construct {s : State} (hr : s.resetReq = false) (dpins spins : List Pin) :
    Emits (goto (configSeq 0 (configPins s.cfg dpins spins)) (construct dpins spins s))
      ((configPins s.cfg dpins spins).map Event.cfgOut) (configResult dpins spins s) :=
  emits_config (configPins s.cfg dpins spins) _ 0 _ rfl hr rfl

/-- Settles O26: one accept step, then the run of the event list. -/
theorem configRunEmitsItsEventList : Obligations.ConfigRunEmitsItsEventList := by
  intro s dpins spins rest hr hq hc hwf hcmd
  have hstep := (step_accept hr hq (decode_eq_command.mpr ⟨hwf, hcmd⟩)).trans
    (exec_config (s := withCmd rest s) hc dpins spins)
  have hemits := emits_construct (s := withCmd rest s) hr dpins spins
  rw [← List.length_map (f := Event.cfgOut)]
  refine ⟨?_, fun m hm => ?_⟩
  · rw [Nat.add_comm, run_succ hstep]
    exact hemits.1
  · obtain ⟨t, hrun, htrace, hidle⟩ := hemits.idle_iff rfl hm
    refine ⟨t, ?_, ?_, hidle⟩
    · rw [Nat.add_comm, run_succ hstep]
      exact hrun
    · rw [List.map_take]
      exact htrace

end Sys2Proof.Machine
end

section
/-!
The mutation of the Display State (spec 42_state_mutation.md): SETD by its two range tests (R78), SETDS position by position (R79,
R80), and the last write of a list of whole commands (R81).
-/
namespace Sys2Proof.Machine

/-! SETD. -/

/-- Both range tests pass (R78). -/
theorem setDigit_eq_writeDs {k : Nat} {y : Byte} {s : State} {sym : Symbol} (hk : k < s.cfg.numDigits)
    (hy : symbolOperand y = some sym) : setDigit k y s = writeDs k (decodeSymbol s.cfg sym) s := by
  obtain ⟨sym', -, hy', hwrite⟩ | ⟨hfail | hfail, -⟩ := setDigit_cases k y s
  · rw [hwrite, Option.some.inj (hy.symm.trans hy')]
  · omega
  · simp [hy] at hfail

/-- A range test fails (R78). -/
theorem setDigit_eq_self {k : Nat} {y : Byte} {s : State} (h : s.cfg.numDigits ≤ k ∨ symbolOperand y = none) :
    setDigit k y s = s := by
  obtain ⟨sym, hk, hy, -⟩ | ⟨-, hsame⟩ := setDigit_cases k y s
  · obtain hfail | hfail := h
    · omega
    · simp [hy] at hfail
  · exact hsame

/-- Settles O27: the two range tests pass, or one of them fails. -/
theorem setdWritesOneEntryOrNothing : Obligations.SetdWritesOneEntryOrNothing := by
  intro s position symbol hc hlen
  refine ⟨_, exec_setd hc position symbol, fun hpos sym hsym => ?_, fun hfail => ?_⟩
  · have hentry : (setDigit position.toNat symbol s).ds[position.toNat]? = some (decodeSymbol s.cfg sym) := by
      rw [setDigit_eq_writeDs hpos (symbolOperand_eq_some.mpr hsym), writeDs_ds,
        List.getElem?_set_self (by rw [hlen]; exact hpos)]
    refine ⟨setDigit_frame .., setDigit_ds_length .., hentry, fun j hj => ?_, fun hlo hhi => ?_⟩
    · rw [setDigit_eq_writeDs hpos (symbolOperand_eq_some.mpr hsym), writeDs_ds, List.getElem?_set_ne hj.symm]
    · rw [hentry, decodeSymbol_blank s.cfg (by omega) (by omega)]
  · exact setDigit_eq_self (hfail.imp_right symbolOperand_eq_none.mpr)

/-! SETDS. -/

/-- Position j holds the pattern of the symbol supplied for it (R79). -/
theorem setDigitsFrom_zero_getElem?_written {ys : List Byte} {s : State} {j : Nat} {sym : Symbol}
    (hlen : s.ds.length = s.cfg.numDigits) (hj : j < s.cfg.numDigits) (hsym : (ys[j]?).bind symbolOperand = some sym) :
    (setDigitsFrom 0 ys s).ds[j]? = some (decodeSymbol s.cfg sym) := by
  rw [setDigitsFrom_getElem? ys 0 s hlen, if_pos ⟨Nat.zero_le j, hj⟩, Nat.sub_zero, hsym]

/-- Position j is kept where no symbol, or none that decodes, is supplied for it (R79). -/
theorem setDigitsFrom_zero_getElem?_kept {ys : List Byte} {s : State} {j : Nat} (hlen : s.ds.length = s.cfg.numDigits)
    (hsym : (ys[j]?).bind symbolOperand = none) : (setDigitsFrom 0 ys s).ds[j]? = s.ds[j]? := by
  rw [setDigitsFrom_getElem? ys 0 s hlen, Nat.sub_zero, hsym]
  exact ite_self _

/-- Beyond the Display State there is nothing to write (R35). -/
theorem setDigitsFrom_getElem?_of_le (k : Nat) (ys : List Byte) {s : State} {j : Nat} (hj : s.ds.length ≤ j) :
    (setDigitsFrom k ys s).ds[j]? = s.ds[j]? := by
  rw [List.getElem?_eq_none hj, List.getElem?_eq_none (by rwa [setDigitsFrom_ds_length])]

/-- Settles O28: a position below both bounds has a symbol of its own; one above has none, or is no position. -/
theorem setdsUpdatesSuppliedPositions : Obligations.SetdsUpdatesSuppliedPositions := by
  intro s symbols hc hlen
  refine ⟨_, exec_setds hc symbols, setDigitsFrom_frame .., setDigitsFrom_ds_length .., ?_, fun k hk => ?_⟩
  · intro k b hk hb
    refine ⟨fun sym hsym => ?_, fun hbad => ?_⟩
    · refine setDigitsFrom_zero_getElem?_written hlen (lt_min_iff.mp hk).2 ?_
      rw [hb, Option.bind_some, symbolOperand_eq_some.mpr hsym]
    · refine setDigitsFrom_zero_getElem?_kept hlen ?_
      rw [hb, Option.bind_some, symbolOperand_eq_none.mpr hbad]
  · obtain hshort | hout := min_le_iff.mp hk
    · refine setDigitsFrom_zero_getElem?_kept hlen ?_
      rw [List.getElem?_eq_none hshort, Option.bind_none]
    · exact setDigitsFrom_getElem?_of_le 0 symbols (hlen ▸ hout)

/-! A list of whole commands. -/

/-- Whole commands one after the other, each with its full effect (R81). -/
def commandsResult (cmds : List Instr) (s : State) : State := cmds.foldl (fun u i => commandResult i u) s

@[simp] theorem commandsResult_nil (s : State) : commandsResult [] s = s := rfl

@[simp] theorem commandsResult_cons (i : Instr) (is : List Instr) (s : State) :
    commandsResult (i :: is) s = commandsResult is (commandResult i s) := rfl

/-- What one command leaves in position j: the pattern it writes there, or else what was there (R78, R79, R82). -/
theorem commandResult_getElem?_or {i : Instr} (hi : ∀ dpins spins, i ≠ .config dpins spins) {s : State}
    (hlen : s.ds.length = s.cfg.numDigits) {j : Nat} (hj : j < s.cfg.numDigits) :
    (commandResult i s).ds[j]? = ((symbolWritten s.cfg j i).map (decodeSymbol s.cfg)).or s.ds[j]? := by
  rw [commandResult_getElem? hi hlen hj]
  cases symbolWritten s.cfg j i <;> rfl

theorem commandsResult_ds_length {cmds : List Instr} (hcmds : ∀ i ∈ cmds, ∀ dpins spins, i ≠ .config dpins spins)
    (s : State) : (commandsResult cmds s).ds.length = s.ds.length := by
  induction cmds generalizing s with
  | nil => rfl
  | cons i is ih =>
    obtain ⟨hi, his⟩ := List.forall_mem_cons.mp hcmds
    obtain ⟨-, -, hds⟩ := commandResult_frame hi s
    rw [commandsResult_cons, ih his, hds]

/-- What a list leaves in position j: the pattern of its last symbol for j, or else what was there (R81). -/
theorem commandsResult_getElem?_or {cmds : List Instr} (hcmds : ∀ i ∈ cmds, ∀ dpins spins, i ≠ .config dpins spins)
    {s : State} (hlen : s.ds.length = s.cfg.numDigits) {j : Nat} (hj : j < s.cfg.numDigits) :
    (commandsResult cmds s).ds[j]? = ((lastSymbol s.cfg j cmds).map (decodeSymbol s.cfg)).or s.ds[j]? := by
  induction cmds generalizing s with
  | nil => rfl
  | cons i is ih =>
    obtain ⟨hi, his⟩ := List.forall_mem_cons.mp hcmds
    obtain ⟨hcfg, -, hds⟩ := commandResult_frame hi s
    rw [commandsResult_cons, ih his (by rw [hds, hcfg, hlen]) (by rwa [hcfg]), hcfg,
      commandResult_getElem?_or hi hlen hj, ← Option.or_assoc, ← Option.map_or, lastSymbol]

/-- Without a REFRESH every command is complete in its accept step (R77). -/
theorem execAll_eq_commandsResult {cmds : List Instr} (hcmds : ∀ i ∈ cmds, ∀ dpins spins, i ≠ .config dpins spins)
    (hrefresh : ∀ i ∈ cmds, ∀ dwell, i ≠ .refresh dwell) {s : State} (hc : s.constructed = true) :
    execAll cmds s = .next (commandsResult cmds s) := by
  induction cmds generalizing s with
  | nil => rfl
  | cons i is ih =>
    obtain ⟨hi, his⟩ := List.forall_mem_cons.mp hcmds
    obtain ⟨hir, hisr⟩ := List.forall_mem_cons.mp hrefresh
    obtain ⟨-, hconstructed, -⟩ := commandResult_frame hi s
    rw [execAll, exec_setter hi hir hc]
    exact ih his hisr (hconstructed.trans hc)

theorem configResult_ds_blank (dpins spins : List Pin) (s : State) :
    (configResult dpins spins s).ds = List.replicate s.cfg.numDigits 0x00#8 := construct_ds_blank dpins spins s

/-- Settles O30: one rule for a list of commands, from the state before it or from the blank display after CONFIG. -/
theorem lastWriteWins : Obligations.LastWriteWins := by
  intro s cmds hcmds
  refine ⟨fun hc hlen => ⟨commandsResult_ds_length hcmds s, fun j hj => ?_,
    fun hrefresh => execAll_eq_commandsResult hcmds hrefresh hc⟩, fun _ dpins spins j hj => ?_⟩
  · have hentry := commandsResult_getElem?_or hcmds hlen hj
    exact ⟨fun sym hsym => by rw [hsym] at hentry; exact hentry, fun hnone => by rw [hnone] at hentry; exact hentry⟩
  · have hblank := configResult_ds_blank dpins spins s
    calc (commandsResult cmds (configResult dpins spins s)).ds[j]?
        = ((lastSymbol s.cfg j cmds).map (decodeSymbol s.cfg)).or (configResult dpins spins s).ds[j]? :=
          commandsResult_getElem?_or hcmds (by rw [hblank, List.length_replicate]; rfl) hj
      _ = some (((lastSymbol s.cfg j cmds).map (decodeSymbol s.cfg)).getD 0x00#8) := by
          rw [hblank, List.getElem?_replicate_of_lt hj, Option.or_some]

end Sys2Proof.Machine
end

section
/-!
The line levels along a scan (spec R93, R94; in the `DRIVE` and `OFF` phases those of R82, log entry 22): one name for the levels of
each `seq` value, one rule for each move of the sequencer, and so the line invariant and the lamps it allows.
-/
namespace Sys2Proof.Machine

/-! Distinct pins (R115): an assigned slot and its pin determine each other. -/

section
variable {s : State} (hd : PinsDistinct s)
include hd

theorem PinsDistinct.seg_pins_nodup : ((assignedSlots s.segSlots).map Prod.snd).Nodup := by
  rw [PinsDistinct, List.map_append] at hd
  exact (List.nodup_append.mp hd).1

theorem PinsDistinct.digit_pins_nodup : ((assignedSlots s.digitSlots).map Prod.snd).Nodup := by
  rw [PinsDistinct, List.map_append] at hd
  exact (List.nodup_append.mp hd).2.1

theorem PinsDistinct.seg_ne_digit {g d : Nat × Pin} (hg : g ∈ assignedSlots s.segSlots)
    (hdig : d ∈ assignedSlots s.digitSlots) : g.2 ≠ d.2 := by
  rw [PinsDistinct, List.map_append] at hd
  exact (List.nodup_append.mp hd).2.2 _ (List.mem_map_of_mem hg) _ (List.mem_map_of_mem hdig)

end

theorem mem_assignedSlots_of_getElem? {slots : List Slot} {k : Nat} {p : Pin} (h : slots[k]? = some ⟨true, p⟩) :
    (k, p) ∈ assignedSlots slots := mem_assignedSlots.mpr h

/-- Where the pins of the assigned slots are distinct, a slot is known by its pin and its pin by its index. -/
theorem pin_eq_iff_of_nodup {slots : List Slot} (hn : ((assignedSlots slots).map Prod.snd).Nodup) {g : Nat × Pin} {k : Nat}
    {p : Pin} (hg : g ∈ assignedSlots slots) (hp : slots[k]? = some ⟨true, p⟩) : p = g.2 ↔ g.1 = k := by
  constructor
  · intro hpin
    exact congrArg Prod.fst (List.inj_on_of_nodup_map hn hg (mem_assignedSlots_of_getElem? hp) hpin.symm)
  · rintro rfl
    have hslot := mem_assignedSlots.mp hg
    rw [hp] at hslot
    exact congrArg Slot.pin (Option.some.inj hslot)

/-! One more event and the line view (R12). -/

theorem line_emit_setOut_same (p : Pin) (l : Level) (s : State) : line (emit (.setOut p l) s).trace p = some l := by
  rw [line_emit, lineAfter, if_pos rfl]

theorem line_emit_setOut_of_ne {p q : Pin} (h : p ≠ q) (l : Level) (s : State) :
    line (emit (.setOut p l) s).trace q = line s.trace q := by
  rw [line_emit, lineAfter, if_neg h]

/-- An event that drives no line leaves the whole line view. -/
theorem line_emit_of_silent {e : Event} (he : ∀ p l, e ≠ .setOut p l) (s : State) :
    line (emit e s).trace = line s.trace := by
  funext q
  rw [line_emit]
  cases e with
  | setOut p l => exact absurd rfl (he p l)
  | cfgOut | wait => rfl

/-- Among lines of one kind only that of the driven slot changes. -/
theorem line_emit_slot {s : State} {slots : List Slot} (hn : ((assignedSlots slots).map Prod.snd).Nodup) {g : Nat × Pin}
    (hg : g ∈ assignedSlots slots) {k : Nat} {p : Pin} (hp : slots[k]? = some ⟨true, p⟩) (l : Level) :
    line (emit (.setOut p l) s).trace g.2 = if g.1 = k then some l else line s.trace g.2 := by
  split
  next hk => rw [← (pin_eq_iff_of_nodup hn hg hp).mpr hk, line_emit_setOut_same]
  next hk => exact line_emit_setOut_of_ne (mt (pin_eq_iff_of_nodup hn hg hp).mp hk) l s

/-! The level of a pattern bit (R83, R87). -/

theorem lvl_eq_driveLevel {s : State} {i j : Nat} {bit : Bool} (h : readDsBit s j i = some bit) :
    lvl s i j = driveLevel bit := by
  rw [lvl, h, Option.getD_some]

theorem lvl_eq_ite (s : State) (i j : Nat) : lvl s i j = if readDsBit s j i = some true then .low else .high := by
  rcases h : readDsBit s j i with _ | _ | _ <;> simp [lvl, h, driveLevel]

theorem lvl_eq_low_iff {s : State} {i j : Nat} : lvl s i j = .low ↔ readDsBit s j i = some true := by
  simp [lvl_eq_ite]

/-! The levels of each phase, by name. -/

/-- Between two windows: no lamp can be lit, and the segment lines below `low` have been left `LOW`. -/
def Dark (s : State) (low : Nat) : Prop := segsOff s none low ∧ digitsNotLow s

/-- The window of segment slot i is open. -/
def WindowOpen (s : State) (i : Nat) : Prop := segHigh s i ∧ segsOff s (some i) i

/-- The digit lines below `j` stand as their pattern bits say, the others are not `LOW` (R87). -/
def DrivenBelow (s : State) (i j : Nat) : Prop :=
  ∀ d ∈ assignedSlots s.digitSlots, if d.1 < j then line s.trace d.2 = some (lvl s i d.1) else line s.trace d.2 ≠ some .low

/-- The digit lines below `j` are disabled, the others stand as their pattern bits say (R89). -/
def DisabledBelow (s : State) (i j : Nat) : Prop :=
  ∀ d ∈ assignedSlots s.digitSlots, line s.trace d.2 = some (if d.1 < j then .high else lvl s i d.1)

/-- What `lineLevels` asks in the `seq` value `q`. -/
def LevelsOf (s : State) : Seq → Prop
  | .idle => Dark s 0
  | .cfg _ _ => Dark s 0
  | .segOn i => Dark s i
  | .drive i j => WindowOpen s i ∧ DrivenBelow s i j
  | .wait i => WindowOpen s i ∧ ∀ d ∈ assignedSlots s.digitSlots, line s.trace d.2 = some (lvl s i d.1)
  | .off i j => WindowOpen s i ∧ DisabledBelow s i j
  | .segOff i => WindowOpen s i ∧ ∀ d ∈ assignedSlots s.digitSlots, line s.trace d.2 = some .high

theorem lineLevels_iff {s : State} {q : Seq} (hq : s.seq = q) : lineLevels s ↔ LevelsOf s q := by
  subst hq
  unfold lineLevels
  cases s.seq <;> simp only [LevelsOf, Dark, WindowOpen, DrivenBelow, DisabledBelow, and_assoc]

theorem lineLevels_goto {s : State} {q : Seq} (h : LevelsOf s q) : lineLevels (goto q s) :=
  (lineLevels_iff (s := goto q s) rfl).mpr (by cases q <;> exact h)

/-! Moving to the next slot passes over unassigned slots only. -/

/-- No assigned slot lies between `k` and the next one. -/
theorem lt_nextAssigned_iff {slots : List Slot} {k m : Nat} (h : nextAssigned slots k = some m) {g : Nat × Pin}
    (hg : g ∈ assignedSlots slots) : g.1 < m ↔ g.1 < k := by
  obtain ⟨hle, -, hbelow⟩ := nextAssigned_some h
  exact ⟨hbelow g hg, fun hlt => by omega⟩

theorem levelsOf_segSeq {s : State} {i : Nat} (h : Dark s i) : LevelsOf s (segSeq s i) := by
  obtain ⟨hseg, hdigit⟩ := h
  unfold segSeq
  split
  next => exact ⟨fun g hg hne => ⟨(hseg g hg hne).1, nofun⟩, hdigit⟩
  next i' hnext =>
    refine ⟨fun g hg hne => ?_, hdigit⟩
    simpa only [lt_nextAssigned_iff hnext hg] using hseg g hg hne

theorem levelsOf_driveSeq {s : State} {i j : Nat} (hopen : WindowOpen s i) (hdriven : DrivenBelow s i j) :
    LevelsOf s (driveSeq s i j) := by
  unfold driveSeq
  split
  next hnone =>
    refine ⟨hopen, fun d hd => ?_⟩
    have h := hdriven d hd
    rwa [if_pos (lt_of_nextAssigned_none hnone d hd)] at h
  next j' hnext =>
    refine ⟨hopen, fun d hd => ?_⟩
    simpa only [lt_nextAssigned_iff hnext hd] using hdriven d hd

theorem levelsOf_offSeq {s : State} {i j : Nat} (hopen : WindowOpen s i) (hoff : DisabledBelow s i j) :
    LevelsOf s (offSeq s i j) := by
  unfold offSeq
  split
  next hnone =>
    refine ⟨hopen, fun d hd => ?_⟩
    have h := hoff d hd
    rwa [if_pos (lt_of_nextAssigned_none hnone d hd)] at h
  next j' hnext =>
    refine ⟨hopen, fun d hd => ?_⟩
    simpa only [lt_nextAssigned_iff hnext hd] using hoff d hd

/-! What each event does to the levels. -/

@[simp] theorem lvl_emit (e : Event) (s : State) (i j : Nat) : lvl (emit e s) i j = lvl s i j := rfl

theorem LevelsOf.emit_silent {s : State} {e : Event} (he : ∀ p l, e ≠ .setOut p l) {q : Seq} (h : LevelsOf s q) :
    LevelsOf (emit e s) q := by
  have hline := line_emit_of_silent he s
  cases q <;>
    simpa only [LevelsOf, Dark, WindowOpen, DrivenBelow, DisabledBelow, segsOff, segHigh, digitsNotLow, emit_segSlots,
      emit_digitSlots, lvl_emit, hline] using h

section
variable {s : State} (hd : PinsDistinct s) {i j : Nat} {p : Pin}
include hd

/-- Driving a digit line leaves the segment lines. -/
theorem line_emit_digit {g : Nat × Pin} (hg : g ∈ assignedSlots s.segSlots) (hp : s.digitSlots[j]? = some ⟨true, p⟩)
    (l : Level) : line (emit (.setOut p l) s).trace g.2 = line s.trace g.2 :=
  line_emit_setOut_of_ne (hd.seg_ne_digit hg (mem_assignedSlots_of_getElem? hp)).symm l s

/-- Driving a segment line leaves the digit lines. -/
theorem line_emit_seg {d : Nat × Pin} (hdig : d ∈ assignedSlots s.digitSlots) (hp : s.segSlots[i]? = some ⟨true, p⟩)
    (l : Level) : line (emit (.setOut p l) s).trace d.2 = line s.trace d.2 :=
  line_emit_setOut_of_ne (hd.seg_ne_digit (mem_assignedSlots_of_getElem? hp) hdig) l s

theorem WindowOpen.emit_digit (h : WindowOpen s i) (hp : s.digitSlots[j]? = some ⟨true, p⟩) (l : Level) :
    WindowOpen (emit (.setOut p l) s) i := by
  obtain ⟨hhigh, hoff⟩ := h
  constructor
  · intro g hg hi
    rw [line_emit_digit hd hg hp]
    exact hhigh g hg hi
  · intro g hg hne
    rw [line_emit_digit hd hg hp]
    exact hoff g hg hne

/-- `SEG_ON(i)` opens the window (R86). -/
theorem Dark.emit_segOn (h : Dark s i) (hp : s.segSlots[i]? = some ⟨true, p⟩) :
    WindowOpen (emit (.setOut p .high) s) i ∧ DrivenBelow (emit (.setOut p .high) s) i 0 := by
  obtain ⟨hseg, hdigit⟩ := h
  refine ⟨⟨fun g hg hi => ?_, fun g hg hne => ?_⟩, fun d hdig => ?_⟩
  · rw [line_emit_slot hd.seg_pins_nodup hg hp, if_pos hi]
  · rw [line_emit_slot hd.seg_pins_nodup hg hp, if_neg fun hi => hne (congrArg some hi)]
    exact hseg g hg nofun
  · rw [if_neg (by omega), line_emit_seg hd hdig hp]
    exact hdigit d hdig

/-- `DRIVE(i, j)` drives one more digit line (R87). -/
theorem DrivenBelow.emit_drive (h : DrivenBelow s i j) (hp : s.digitSlots[j]? = some ⟨true, p⟩) :
    DrivenBelow (emit (.setOut p (lvl s i j)) s) i (j + 1) := by
  intro d hdig
  rw [line_emit_slot hd.digit_pins_nodup hdig hp]
  by_cases hj : d.1 = j
  · subst hj
    rw [if_pos (Nat.lt_succ_self _), if_pos rfl]
    rfl
  · have hbelow : d.1 < j + 1 ↔ d.1 < j := by omega
    simpa only [if_neg hj, hbelow, lvl_emit] using h d hdig

/-- `OFF(i, j)` disables one more digit line (R89). -/
theorem DisabledBelow.emit_off (h : DisabledBelow s i j) (hp : s.digitSlots[j]? = some ⟨true, p⟩) :
    DisabledBelow (emit (.setOut p .high) s) i (j + 1) := by
  intro d hdig
  rw [line_emit_slot hd.digit_pins_nodup hdig hp]
  by_cases hj : d.1 = j
  · rw [if_pos hj, if_pos (by omega)]
  · have hbelow : d.1 < j + 1 ↔ d.1 < j := by omega
    simpa only [if_neg hj, hbelow, lvl_emit] using h d hdig

/-- `SEG_OFF(i)` closes the window (R90). -/
theorem WindowOpen.emit_segOff (h : WindowOpen s i) (hoff : ∀ d ∈ assignedSlots s.digitSlots, line s.trace d.2 = some .high)
    (hp : s.segSlots[i]? = some ⟨true, p⟩) : Dark (emit (.setOut p .low) s) (i + 1) := by
  obtain ⟨-, hseg⟩ := h
  refine ⟨fun g hg _ => ?_, fun d hdig => ?_⟩
  · rw [line_emit_slot hd.seg_pins_nodup hg hp]
    split
    next => exact ⟨by simp, fun _ => rfl⟩
    next hne =>
      obtain ⟨hnot, hlow⟩ := hseg g hg fun h => hne (Option.some.inj h)
      exact ⟨hnot, fun hlt => hlow (by omega)⟩
  · rw [line_emit_seg hd hdig hp, hoff d hdig]
    simp

/-- A move of the sequencer keeps the line levels: the event brings the lines to those of the `seq` value it leads to. -/
theorem Moves.lineLevels {e : Event} {q : Seq} (hm : Moves s e q) (h : lineLevels s) : lineLevels (goto q (emit e s)) := by
  apply lineLevels_goto
  cases hm with
  | @cfg k pins p hq hp =>
    have hdark := LevelsOf.emit_silent (e := .cfgOut p) (by simp) ((lineLevels_iff hq).mp h)
    unfold configSeq
    split <;> exact hdark
  | segOn hq hp =>
    obtain ⟨hopen, hdriven⟩ := Dark.emit_segOn hd ((lineLevels_iff hq).mp h) hp
    exact levelsOf_driveSeq hopen hdriven
  | drive hq hp hb =>
    obtain ⟨hopen, hdriven⟩ := (lineLevels_iff hq).mp h
    rw [← lvl_eq_driveLevel hb]
    exact levelsOf_driveSeq (hopen.emit_digit hd hp _) (hdriven.emit_drive hd hp)
  | wait hq =>
    obtain ⟨hopen, hdriven⟩ := LevelsOf.emit_silent (e := .wait s.dw) (by simp) ((lineLevels_iff hq).mp h)
    exact levelsOf_offSeq hopen hdriven
  | off hq hp =>
    obtain ⟨hopen, hoff⟩ := (lineLevels_iff hq).mp h
    exact levelsOf_offSeq (hopen.emit_digit hd hp _) (hoff.emit_off hd hp)
  | segOff hq hp =>
    obtain ⟨hopen, hoff⟩ := (lineLevels_iff hq).mp h
    exact levelsOf_segSeq (hopen.emit_segOff hd hoff hp)

end

/-- With no event out yet every line is unknown, and the block is dark. -/
theorem dark_of_trace_nil {s : State} (h : s.trace = []) : Dark s 0 := by
  constructor
  · intro g _ _
    rw [h]
    exact ⟨nofun, nofun⟩
  · intro d _
    rw [h]
    exact nofun

/-- An accepted command finds the block dark and emits nothing. -/
theorem LineInv.exec {s t : State} {i : Instr} (hinv : LineInv s) (hi : Inv s) (hq : s.seq = .idle) (h : exec i s = .next t) :
    LineInv t := by
  rcases exec_next_setter h with ⟨dpins, spins, _, hc, rfl⟩ | ⟨hsetter, _, rfl⟩ | ⟨dwell, _, _, rfl⟩
  · obtain ⟨-, -, -, htrace⟩ := hi.beforeConfig hc
    have hdark : Dark (construct dpins spins s) 0 := dark_of_trace_nil htrace
    refine fun _ => lineLevels_goto ?_
    unfold configSeq
    split <;> exact hdark
  · rw [commandResult_setter_frame hsetter]
    intro hd
    have hdark : Dark s 0 := (lineLevels_iff hq).mp (hinv hd)
    exact (lineLevels_iff (s := { s with ds := (commandResult i s).ds }) hq).mpr hdark
  · intro hd
    have hdark : Dark (latchDwell dwell s) 0 := (lineLevels_iff hq).mp (hinv hd)
    exact lineLevels_goto (levelsOf_segSeq hdark)

/-- Settles O22: a reset and an accepted command leave the block dark, a wait leaves it as it is, and every move keeps the levels. -/
theorem lineLevelsKept : Obligations.LineLevelsKept := by
  intro s t hi hinv h
  rcases step_cases h with ⟨_, _, rfl⟩ | ⟨_, hq, i, rest, _, hexec⟩ | ⟨_, _, _, rfl⟩ | ⟨_, _, e, q, hm, rfl⟩
  · exact lineInv_resetWith s.cfg
  · exact LineInv.exec (s := withCmd rest s) hinv (hi.withCmd rest) hq hexec
  · exact hinv
  · exact fun hd : PinsDistinct s => hm.lineLevels hd (hinv hd)

/-! The lamps. -/

theorem Dark.not_lampLit {s : State} {low : Nat} (h : Dark s low) {g d : Nat × Pin}
    (hg : g ∈ assignedSlots s.segSlots) : ¬ lampLit s g.2 d.2 :=
  fun hlit => (h.1 g hg nofun).1 hlit.1

/-- In an open window only its own segment line can light a lamp. -/
theorem WindowOpen.lampLit_iff {s : State} {i : Nat} (h : WindowOpen s i) {g d : Nat × Pin}
    (hg : g ∈ assignedSlots s.segSlots) : lampLit s g.2 d.2 ↔ g.1 = i ∧ line s.trace d.2 = some .low := by
  obtain ⟨hhigh, hoff⟩ := h
  refine and_congr_left fun _ => ⟨fun hline => ?_, hhigh g hg⟩
  by_contra hne
  exact (hoff g hg fun hi => hne (Option.some.inj hi)).1 hline

theorem WindowOpen.not_lampLit {s : State} {i : Nat} (h : WindowOpen s i) {g d : Nat × Pin}
    (hg : g ∈ assignedSlots s.segSlots) (hline : line s.trace d.2 = some .high) : ¬ lampLit s g.2 d.2 := by
  rw [h.lampLit_iff hg, hline]
  simp

theorem DrivenBelow.line_eq_low_iff {s : State} {i j : Nat} (h : DrivenBelow s i j) {d : Nat × Pin}
    (hd : d ∈ assignedSlots s.digitSlots) : line s.trace d.2 = some .low ↔ readDsBit s d.1 i = some true ∧ d.1 < j := by
  have hline := h d hd
  split at hline
  next hlt => rw [hline, Option.some.injEq, lvl_eq_low_iff, and_iff_left hlt]
  next hge => exact iff_of_false hline fun hlow => hge hlow.2

theorem DisabledBelow.line_eq_low_iff {s : State} {i j : Nat} (h : DisabledBelow s i j) {d : Nat × Pin}
    (hd : d ∈ assignedSlots s.digitSlots) : line s.trace d.2 = some .low ↔ readDsBit s d.1 i = some true ∧ j ≤ d.1 := by
  rw [h d hd, Option.some.injEq]
  split
  next hlt => exact iff_of_false nofun fun hlow => by omega
  next hge => rw [lvl_eq_low_iff, and_iff_left (by omega)]

/-- Settles O45: the phases of an open window by its segment line and the level of the digit line, the others by what is dark. -/
theorem litLampsAreThePatternBits : Obligations.LitLampsAreThePatternBits := by
  intro s hinv hdistinct g hg d hd
  have hlevels := hinv hdistinct
  refine ⟨fun i hq => ?_, fun i j hq => ?_, fun i j hq => ?_, ?_⟩
  · obtain ⟨hopen, hdriven⟩ := (lineLevels_iff hq).mp hlevels
    rw [hopen.lampLit_iff hg, hdriven d hd, Option.some.injEq, lvl_eq_low_iff]
  · obtain ⟨hopen, hdriven⟩ := (lineLevels_iff hq).mp hlevels
    rw [hopen.lampLit_iff hg, hdriven.line_eq_low_iff hd]
  · obtain ⟨hopen, hoff⟩ := (lineLevels_iff hq).mp hlevels
    rw [hopen.lampLit_iff hg, hoff.line_eq_low_iff hd]
  · rintro (hq | ⟨k, pins, hq⟩ | ⟨i, hq | hq⟩)
    · exact Dark.not_lampLit ((lineLevels_iff hq).mp hlevels) hg
    · exact Dark.not_lampLit ((lineLevels_iff hq).mp hlevels) hg
    · exact Dark.not_lampLit ((lineLevels_iff hq).mp hlevels) hg
    · obtain ⟨hopen, hoff⟩ := (lineLevels_iff hq).mp hlevels
      exact hopen.not_lampLit hg (hoff d hd)

end Sys2Proof.Machine
end

section
/-!
The steps of a REFRESH one by one (spec R85 to R90): the next assigned slot as the least one, the accept step, and each step of the
sequencer as the move it takes. A step emits one event exactly when a command runs (R91), and only `DRIVE` reads the Display State.
-/
namespace Sys2Proof.Machine

/-! The next assigned slot (R85). -/

theorem isAssigned_iff_mem {slots : List Slot} {k : Nat} : isAssigned slots k = true ↔ ∃ p, (k, p) ∈ assignedSlots slots := by
  simp only [isAssigned_iff, mem_assignedSlots]

theorem isAssigned_lt {slots : List Slot} {k : Nat} (h : isAssigned slots k = true) : k < slots.length := by
  obtain ⟨p, hp⟩ := isAssigned_iff.mp h
  exact (List.getElem?_eq_some_iff.mp hp).1

theorem lt_of_isAssigned_of_nextAssigned_none {slots : List Slot} {k m : Nat} (h : nextAssigned slots k = none)
    (hm : isAssigned slots m = true) : m < k := by
  obtain ⟨p, hp⟩ := isAssigned_iff_mem.mp hm
  exact lt_of_nextAssigned_none h _ hp

theorem nextAssigned_eq_none_iff {slots : List Slot} {k : Nat} :
    nextAssigned slots k = none ↔ ∀ m, k ≤ m → m < slots.length → isAssigned slots m = false := by
  constructor
  · intro hnone m hle _
    rw [Bool.eq_false_iff]
    intro hm
    have hlt := lt_of_isAssigned_of_nextAssigned_none hnone hm
    omega
  · intro hnone
    rw [Option.eq_none_iff_forall_ne_some]
    intro m hnext
    obtain ⟨hle, hm, -⟩ := nextAssigned_some hnext
    simp [hnone m hle (isAssigned_lt hm)] at hm

/-- `nextAssigned` answers the least assigned slot at or above `k`, and no other. -/
theorem nextAssigned_eq_some_iff {slots : List Slot} {k m : Nat} : nextAssigned slots k = some m ↔
    k ≤ m ∧ m < slots.length ∧ isAssigned slots m = true ∧ ∀ m', k ≤ m' → m' < m → isAssigned slots m' = false := by
  constructor
  · intro hnext
    obtain ⟨hle, hm, -⟩ := nextAssigned_some hnext
    refine ⟨hle, isAssigned_lt hm, hm, fun m' hle' hlt => ?_⟩
    rw [Bool.eq_false_iff]
    intro hm'
    obtain ⟨p, hp⟩ := isAssigned_iff_mem.mp hm'
    have hbelow := (lt_nextAssigned_iff hnext hp).mp hlt
    omega
  · rintro ⟨hle, -, hm, hleast⟩
    cases hnext : nextAssigned slots k with
    | none =>
      have hlt := lt_of_isAssigned_of_nextAssigned_none hnext hm
      omega
    | some n =>
      obtain ⟨hle', hn, -⟩ := nextAssigned_some hnext
      obtain ⟨p, hp⟩ := isAssigned_iff_mem.mp hm
      rcases Nat.lt_trichotomy m n with hlt | rfl | hgt
      · have hbelow := (lt_nextAssigned_iff hnext hp).mp hlt
        omega
      · rfl
      · simp [hleast n hle' hgt] at hn

/-! The accept step. -/

theorem exec_refresh {s : State} (hc : s.constructed = true) (dwell : Nat) :
    exec (.refresh dwell) s = .next (goto (segSeq s 0) (latchDwell dwell s)) := by
  simp only [exec, execRefresh, whenConstructed, hc, if_true]

/-- Settles O31. -/
theorem refreshAcceptGoesToFirstWindow : Obligations.RefreshAcceptGoesToFirstWindow := by
  refine ⟨fun _ _ _ => nextAssigned_eq_some_iff, fun _ _ => nextAssigned_eq_none_iff, fun s dwell hc _ => ⟨?_, ?_⟩⟩
  · intro hnone
    rw [exec_refresh hc, segSeq, hnone]
    rfl
  · intro i hnext
    rw [exec_refresh hc, segSeq, hnext]
    rfl

/-- No accept step emits an event (R85). -/
theorem exec_trace {i : Instr} {s t : State} (h : exec i s = .next t) : t.trace = s.trace := by
  rcases exec_next_setter h with ⟨dpins, spins, _, _, rfl⟩ | ⟨hsetter, _, rfl⟩ | ⟨dwell, _, _, rfl⟩
  · rfl
  · rw [commandResult_setter_frame hsetter]
  · rfl

/-- Settles O11: accepting and waiting emit nothing, and a move emits its one event. -/
theorem oneEventPerSequencerStep : Obligations.OneEventPerSequencerStep := by
  intro s t hr h
  rcases step_cases h with ⟨hr', _⟩ | ⟨_, hq, i, rest, _, hexec⟩ | ⟨_, hq, _, rfl⟩ | ⟨_, hq, e, q, _, rfl⟩
  · simp [hr] at hr'
  · exact ⟨fun _ => exec_trace (s := withCmd rest s) hexec, fun hne => absurd hq hne⟩
  · exact ⟨fun _ => rfl, fun hne => absurd hq hne⟩
  · exact ⟨fun hidle => absurd hidle hq, fun _ => ⟨e, rfl⟩⟩

/-! The steps of the sequencer are its moves. -/

/-- Settles O32. -/
theorem segOnStep : Obligations.SegOnStep :=
  fun _ _ _ hr hq hp => step_of_moves hr (.segOn hq hp)

/-- Settles O34. -/
theorem waitStep : Obligations.WaitStep :=
  fun _ _ hr hq => step_of_moves hr (.wait hq)

/-- Settles O35. -/
theorem offStep : Obligations.OffStep :=
  fun _ _ _ _ hr hq hp => step_of_moves hr (.off hq hp)

/-- Settles O36: the move, and no slot at or above 8 in an array of 8. -/
theorem segOffStep : Obligations.SegOffStep :=
  fun _ _ _ hr hq hp =>
    ⟨step_of_moves hr (.segOff hq hp), fun hlen => nextAssigned_eq_none_iff.mpr fun m hle hlt => by omega⟩

/-! Every step of a running command but `DRIVE` passes the Display State through. -/

/-- `s` with another Display State. -/
def withDs (ds : List Byte) (s : State) : State := { s with ds := ds }

/-- What follows the guarded read of a pin may be changed before or after it. -/
theorem withPin_mapNext (g : State → State) (slots : List Slot) (k : Nat) (f : Pin → Out) :
    withPin slots k (fun p => mapNext g (f p)) = mapNext g (withPin slots k f) := by
  simpa using withPin_map_renameSlot (f := id) (g := g) (h := f) (fun _ => rfl) slots k

theorem step_eq_sequencerStep {s : State} (hr : s.resetReq = false) : step s = sequencerStep exec s := by
  simp [step, stepWith, hr]

theorem sequencerStep_withDs {s : State} (hidle : s.seq ≠ .idle) (hdrive : ∀ i j, s.seq ≠ .drive i j) (ds : List Byte) :
    sequencerStep exec (withDs ds s) = mapNext (withDs ds) (sequencerStep exec s) := by
  unfold sequencerStep
  rw [show (withDs ds s).seq = s.seq from rfl]
  cases hq : s.seq with
  | idle => exact absurd hq hidle
  | drive i j => exact absurd hq (hdrive i j)
  | cfg k pins =>
    simp only [seqCfg]
    cases pins[k]? <;> rfl
  | segOn i => exact withPin_mapNext (withDs ds) s.segSlots i fun p => .next (goto (driveSeq s i 0) (emit (.setOut p .high) s))
  | wait i => rfl
  | off i j =>
    exact withPin_mapNext (withDs ds) s.digitSlots j fun p =>
      .next (goto (offSeq s i (j + 1)) (emit (.setOut p .high) s))
  | segOff i =>
    exact withPin_mapNext (withDs ds) s.segSlots i fun p =>
      .next (goto (segSeq s (i + 1)) (emit (.setOut p .low) s))

/-- Settles O33: the move of `DRIVE`, and the steps that read no pattern bit. -/
theorem driveStep : Obligations.DriveStep := by
  refine ⟨fun s i j p b hr hq hi hp hb => ?_, fun s ds hr hidle hdrive => ?_⟩
  · exact step_of_moves hr (.drive hq hp (readDsBit_eq_some.mpr ⟨hi, b, hb, rfl⟩))
  · rw [step_eq_sequencerStep hr, step_eq_sequencerStep (s := { s with ds := ds }) hr]
    exact sequencerStep_withDs hidle hdrive ds

end Sys2Proof.Machine
end

section
/-!
Whole commands as runs (spec R91, R102, R103): after the accept step every command emits its event list, one event a step, and ends in
its one-step form; that each event completes is R106 (log entry 14). For REFRESH the list is the trace function's (R83).
-/
namespace Sys2Proof.Machine

theorem segSeq_eq_idle {s : State} {i : Nat} (h : assignedAbove s.segSlots i = []) : segSeq s i = .idle := by
  rcases nextAssigned_cases s.segSlots i with ⟨hnone, _⟩ | ⟨m, p, _, _, _, hcons⟩
  · rw [segSeq, hnone]
  · simp [h] at hcons

/-- After its accept step a REFRESH emits the trace function's list and stands in its one-step form (R82, R83). -/
theorem emits_refresh {s : State} (hr : s.resetReq = false) (hb : Readable s) (dwell : Nat) :
    Emits (goto (segSeq s 0) (latchDwell dwell s)) (refreshTrace s dwell) (refreshResult dwell s) := by
  obtain ⟨i, hemits, hlast⟩ := emits_windows (assignedSlots s.segSlots) [] 0 (goto (segSeq s 0) (latchDwell dwell s))
    (by simp [assignedAbove_zero]) hr rfl hb
  rw [segSeq_eq_idle hlast] at hemits
  exact hemits

/-- A command whose precondition holds is accepted, and then emits its events and stands in its one-step form. -/
theorem exec_emits {s : State} (hi : Inv s) (hr : s.resetReq = false) {i : Instr} (ha : accepts i s = true) :
    ∃ u, exec i s = .next u ∧ Emits u (commandEvents i s) (commandResult i s) := by
  cases i with
  | config dpins spins =>
    have hc : s.constructed = false := by simpa [accepts] using ha
    exact ⟨_, exec_config hc dpins spins, emits_construct hr dpins spins⟩
  | setd position symbol => exact ⟨_, exec_setd ha position symbol, emits_nil _⟩
  | setds symbols => exact ⟨_, exec_setds ha symbols, emits_nil _⟩
  | refresh dwell => exact ⟨_, exec_refresh ha dwell, emits_refresh hr (readable_of_inv hi) dwell⟩

theorem commandResult_seq (i : Instr) {s : State} (hq : s.seq = .idle) : (commandResult i s).seq = .idle := by
  cases i with
  | config | refresh => rfl
  | setd position symbol => rw [commandResult, setDigit_frame]; exact hq
  | setds symbols => rw [commandResult, setDigitsFrom_frame]; exact hq

theorem commandResult_trace (i : Instr) (s : State) : (commandResult i s).trace = s.trace ++ commandEvents i s := by
  cases i with
  | config | refresh => rfl
  | setd position symbol => rw [commandResult, setDigit_frame, commandEvents, List.append_nil]
  | setds symbols => rw [commandResult, setDigitsFrom_frame, commandEvents, List.append_nil]

/-- No command reads the bytes after it. -/
theorem commandResult_withCmd (i : Instr) (rest : List Byte) (s : State) :
    commandResult i (withCmd rest s) = withCmd rest (commandResult i s) := by
  cases i with
  | config | refresh => rfl
  | setd position symbol => exact setDigit_withCmd ..
  | setds symbols => exact setDigitsFrom_withCmd ..

theorem commandEvents_withCmd (i : Instr) (rest : List Byte) (s : State) :
    commandEvents i (withCmd rest s) = commandEvents i s := by
  cases i <;> rfl

/-- The run of a decoded command: its accept step, then `Emits` from there. -/
theorem step_emits {s : State} {i : Instr} {rest : List Byte} (hi : Inv s) (hr : s.resetReq = false) (hq : s.seq = .idle)
    (hd : decode s.cfg s.cmd = .command i rest) (ha : accepts i s = true) :
    ∃ u, step s = .next u ∧ Emits u (commandEvents i s) (withCmd rest (commandResult i s)) := by
  have hacc : accepts i (withCmd rest s) = true := by cases i <;> exact ha
  obtain ⟨u, hexec, hemits⟩ := exec_emits (hi.withCmd rest) hr hacc
  rw [commandEvents_withCmd, commandResult_withCmd] at hemits
  exact ⟨u, (step_accept hr hq hd).trans hexec, hemits⟩

/-- Settles O48. -/
theorem everyAcceptedCommandRunsToIdle : Obligations.EveryAcceptedCommandRunsToIdle := by
  intro s i rest hi hr hq hd ha
  obtain ⟨u, hstep, hrun, -⟩ := step_emits hi hr hq hd ha
  refine ⟨?_, commandResult_seq i hq, commandResult_trace i s⟩
  rw [Nat.add_comm, run_succ hstep]
  exact hrun

/-- Settles O37: the run of O48 for a REFRESH, and the states in the middle of it. -/
theorem refreshRunEmitsTheTraceFunction : Obligations.RefreshRunEmitsTheTraceFunction := by
  intro s dwell rest hi hr hq hc hwf hcmd
  have hdecode : decode s.cfg s.cmd = .command (.refresh dwell) rest := decode_eq_command.mpr ⟨hwf, hcmd⟩
  obtain ⟨u, hstep, hemits⟩ := step_emits hi hr hq hdecode hc
  have hutrace : u.trace = s.trace := exec_trace (s := withCmd rest s) ((step_accept hr hq hdecode).symm.trans hstep)
  refine ⟨?_, fun m hm => ?_⟩
  · rw [Nat.add_comm, run_succ hstep]
    exact hemits.1
  · obtain ⟨t, hrun, htrace, hidle⟩ := hemits.idle_iff rfl hm
    rw [hutrace] at htrace
    exact ⟨t, by rw [Nat.add_comm, run_succ hstep, hrun], htrace, hidle⟩

end Sys2Proof.Machine
end

section
/-!
The trace function (spec R82, R83), read as windows in a row: which pins a window names (R84), how often it drives a line (R92), and the
level it leaves each line at (R93, R94). With distinct pins (R115) a window touches its own segment line and the digit lines alone.
-/
namespace Sys2Proof.Machine

/-! A group of digit events. -/

/-- One `SetOut` for each listed slot, its level by the slot's index. -/
def setOuts (L : List (Nat × Pin)) (level : Nat → Level) : List Event := L.map fun d => .setOut d.2 (level d.1)

theorem driveEvents_eq_setOuts (s : State) (i : Nat) : driveEvents s i = setOuts (assignedSlots s.digitSlots) (lvl s i) := rfl

theorem offEvents_eq_setOuts (s : State) : offEvents s = setOuts (assignedSlots s.digitSlots) fun _ => .high := rfl

theorem mem_setOuts {L : List (Nat × Pin)} {level : Nat → Level} {e : Event} :
    e ∈ setOuts L level ↔ ∃ d ∈ L, .setOut d.2 (level d.1) = e := List.mem_map

theorem setOut_not_mem_setOuts {L : List (Nat × Pin)} {p : Pin} (h : ∀ d ∈ L, p ≠ d.2) (level : Nat → Level) (l : Level) :
    Event.setOut p l ∉ setOuts L level := by
  rw [mem_setOuts]
  rintro ⟨d, hd, heq⟩
  exact h d hd (Event.setOut.inj heq).1.symm

theorem wait_not_mem_setOuts (L : List (Nat × Pin)) (level : Nat → Level) (n : Nat) : Event.wait n ∉ setOuts L level := by
  rw [mem_setOuts]
  rintro ⟨d, _, heq⟩
  cases heq

/-- Each slot with the pin `p` writes the line once, at one level or the other. -/
theorem count_setOuts (p : Pin) (level : Nat → Level) (L : List (Nat × Pin)) :
    (setOuts L level).count (.setOut p .high) + (setOuts L level).count (.setOut p .low) = (L.map Prod.snd).count p := by
  induction L with
  | nil => rfl
  | cons d L ih =>
    have hcons : setOuts (d :: L) level = .setOut d.2 (level d.1) :: setOuts L level := rfl
    rw [hcons, List.map_cons, List.count_cons, List.count_cons, List.count_cons, ← ih]
    by_cases hp : d.2 = p
    · cases level d.1 <;> simp [hp] <;> omega
    · simp [hp]

/-- With distinct pins each listed line is left at its own level. -/
theorem lineFrom_setOuts {L : List (Nat × Pin)} (hn : (L.map Prod.snd).Nodup) (level : Nat → Level) {d : Nat × Pin}
    (hd : d ∈ L) (x : Option Level) : lineFrom x (setOuts L level) d.2 = some (level d.1) := by
  obtain ⟨before, after, rfl⟩ := List.append_of_mem hd
  rw [List.map_append, List.map_cons, List.nodup_append] at hn
  have hafter : ∀ e ∈ after, d.2 ≠ e.2 := by
    rintro e he heq
    exact (List.nodup_cons.mp hn.2.1).1 (heq ▸ List.mem_map_of_mem he)
  have hsplit : setOuts (before ++ d :: after) level =
      setOuts before level ++ .setOut d.2 (level d.1) :: setOuts after level := by simp [setOuts]
  calc lineFrom x (setOuts (before ++ d :: after) level) d.2
      = lineFrom (lineAfter d.2 (lineFrom x (setOuts before level) d.2) (.setOut d.2 (level d.1)))
          (setOuts after level) d.2 := by rw [hsplit, lineFrom_append]; rfl
    _ = lineAfter d.2 (lineFrom x (setOuts before level) d.2) (.setOut d.2 (level d.1)) :=
        lineFrom_of_not_mem (setOut_not_mem_setOuts hafter level) _
    _ = some (level d.1) := if_pos rfl

/-! One window. -/

/-- The windows of the listed segment slots, in a row. -/
def windows (s : State) (dwell : Nat) (L : List (Nat × Pin)) : List Event := L.flatMap fun g => window s dwell g.1 g.2

theorem refreshTrace_eq_windows (s : State) (dwell : Nat) :
    refreshTrace s dwell = windows s dwell (assignedSlots s.segSlots) := rfl

theorem windows_cons (s : State) (dwell : Nat) (g : Nat × Pin) (L : List (Nat × Pin)) :
    windows s dwell (g :: L) = window s dwell g.1 g.2 ++ windows s dwell L := rfl

theorem length_window (s : State) (dwell i : Nat) (p : Pin) :
    (window s dwell i p).length = 2 * assignedCount s.digitSlots + 3 := by
  simp [window, driveEvents, offEvents, assignedCount]
  omega

theorem count_wait_window (s : State) (dwell i : Nat) (p : Pin) : (window s dwell i p).count (.wait dwell) = 1 := by
  have hnone (level : Nat → Level) := List.count_eq_zero.mpr (wait_not_mem_setOuts (assignedSlots s.digitSlots) level dwell)
  simp [window, driveEvents_eq_setOuts, offEvents_eq_setOuts, hnone]

/-- A window names its own segment pin and the assigned digit pins (R84). -/
theorem setOut_mem_window {s : State} {dwell i : Nat} {p q : Pin} {l : Level} (h : Event.setOut q l ∈ window s dwell i p) :
    q = p ∨ ∃ d ∈ assignedSlots s.digitSlots, d.2 = q := by
  by_contra hne
  obtain ⟨hp, hdigit⟩ := not_or.mp hne
  have hnone (level : Nat → Level) := setOut_not_mem_setOuts (L := assignedSlots s.digitSlots) (p := q)
    (fun d hd heq => hdigit ⟨d, hd, heq.symm⟩) level l
  simp [window, driveEvents_eq_setOuts, offEvents_eq_setOuts, hnone, hp] at h

/-- A window has the same events where the same pattern bits of the assigned digits are read (R84). -/
theorem window_congr {s t : State} (hslots : t.digitSlots = s.digitSlots) {i : Nat}
    (hbits : ∀ d ∈ assignedSlots s.digitSlots, readDsBit t d.1 i = readDsBit s d.1 i) (dwell : Nat) (p : Pin) :
    window t dwell i p = window s dwell i p := by
  have hdrive : driveEvents t i = driveEvents s i := by
    rw [driveEvents, driveEvents, hslots]
    exact List.map_congr_left fun d hd => by rw [lvl, lvl, hbits d hd]
  rw [window, window, hdrive, offEvents, offEvents, hslots]

/-! With distinct pins. -/

section
variable {s : State} (hdistinct : PinsDistinct s) (dwell : Nat)
include hdistinct

theorem PinsDistinct.seg_pin_inj {g h : Nat × Pin} (hg : g ∈ assignedSlots s.segSlots) (hh : h ∈ assignedSlots s.segSlots) :
    g.2 = h.2 ↔ g = h :=
  ⟨fun heq => List.inj_on_of_nodup_map hdistinct.seg_pins_nodup hg hh heq, congrArg Prod.snd⟩

/-- Between the two writes of its segment line a window drives digit lines only. -/
theorem setOut_seg_not_mem_setOuts {h : Nat × Pin} (hh : h ∈ assignedSlots s.segSlots) (level : Nat → Level) (l : Level) :
    Event.setOut h.2 l ∉ setOuts (assignedSlots s.digitSlots) level :=
  setOut_not_mem_setOuts (fun _ hd => hdistinct.seg_ne_digit hh hd) level l

theorem count_seg_window {g h : Nat × Pin} (hg : g ∈ assignedSlots s.segSlots) (hh : h ∈ assignedSlots s.segSlots) (l : Level) :
    (window s dwell g.1 g.2).count (.setOut h.2 l) = if g = h then 1 else 0 := by
  have hnone (level : Nat → Level) := List.count_eq_zero.mpr (setOut_seg_not_mem_setOuts hdistinct hh level l)
  cases l <;>
    simp [window, driveEvents_eq_setOuts, offEvents_eq_setOuts, List.count_cons, hnone, hdistinct.seg_pin_inj hg hh]

theorem count_digit_window {g d : Nat × Pin} (hg : g ∈ assignedSlots s.segSlots) (hd : d ∈ assignedSlots s.digitSlots) :
    (window s dwell g.1 g.2).count (.setOut d.2 .high) + (window s dwell g.1 g.2).count (.setOut d.2 .low) = 2 := by
  have hone (level : Nat → Level) := (count_setOuts d.2 level (assignedSlots s.digitSlots)).trans
    (List.count_eq_one_of_mem hdistinct.digit_pins_nodup (List.mem_map_of_mem hd))
  have hdrive := hone (lvl s g.1)
  have hoff := hone fun _ => .high
  have hne := hdistinct.seg_ne_digit hg hd
  simp [window, driveEvents_eq_setOuts, offEvents_eq_setOuts, hne]
  omega

/-- A window leaves its own segment line `LOW` and no other segment line touched. -/
theorem lineFrom_window_seg {g h : Nat × Pin} (hg : g ∈ assignedSlots s.segSlots) (hh : h ∈ assignedSlots s.segSlots)
    (x : Option Level) : lineFrom x (window s dwell g.1 g.2) h.2 = if g = h then some .low else x := by
  split
  next heq =>
    subst heq
    rw [window, ← List.cons_append, ← List.cons_append, ← List.append_assoc, lineFrom_append]
    exact if_pos rfl
  next hne =>
    refine lineFrom_of_not_mem (fun l hmem => ?_) x
    rcases setOut_mem_window hmem with heq | ⟨d, hd, heq⟩
    · exact hne ((hdistinct.seg_pin_inj hg hh).mp heq.symm)
    · exact hdistinct.seg_ne_digit hh hd heq.symm

/-- A window up to its dwell leaves the digit lines as their pattern bits say. -/
theorem lineFrom_open_digit {g d : Nat × Pin} (hd : d ∈ assignedSlots s.digitSlots) (x : Option Level) :
    lineFrom x (.setOut g.2 .high :: driveEvents s g.1) d.2 = some (lvl s g.1 d.1) :=
  lineFrom_setOuts hdistinct.digit_pins_nodup (lvl s g.1) hd _

/-- A window up to its dwell leaves its own segment line `HIGH` and no other segment line touched. -/
theorem lineFrom_open_seg {g h : Nat × Pin} (hg : g ∈ assignedSlots s.segSlots) (hh : h ∈ assignedSlots s.segSlots)
    (x : Option Level) : lineFrom x (.setOut g.2 .high :: driveEvents s g.1) h.2 = if g = h then some .high else x := by
  calc lineFrom x (.setOut g.2 .high :: driveEvents s g.1) h.2
      = lineFrom (lineAfter h.2 x (.setOut g.2 .high)) (driveEvents s g.1) h.2 := rfl
    _ = lineAfter h.2 x (.setOut g.2 .high) := lineFrom_of_not_mem (setOut_seg_not_mem_setOuts hdistinct hh (lvl s g.1)) _
    _ = if g = h then some .high else x := by simp only [lineAfter, hdistinct.seg_pin_inj hg hh]

/-- A window leaves every digit line `HIGH`. -/
theorem lineFrom_window_digit {g d : Nat × Pin} (hg : g ∈ assignedSlots s.segSlots) (hd : d ∈ assignedSlots s.digitSlots)
    (x : Option Level) : lineFrom x (window s dwell g.1 g.2) d.2 = some .high := by
  have hclose (y : Option Level) : lineFrom y [.setOut g.2 .low] d.2 = y := if_neg (hdistinct.seg_ne_digit hg hd)
  rw [window, ← List.cons_append, lineFrom_append, ← List.cons_append, lineFrom_append, hclose]
  exact lineFrom_setOuts hdistinct.digit_pins_nodup (fun _ => .high) hd _

/-! The windows in a row. -/

theorem count_seg_windows {h : Nat × Pin} (hh : h ∈ assignedSlots s.segSlots) (l : Level) : ∀ L ⊆ assignedSlots s.segSlots,
    (windows s dwell L).count (.setOut h.2 l) = L.count h := by
  intro L
  induction L with
  | nil => intro _; rfl
  | cons g L ih =>
    intro hL
    obtain ⟨hg, hL⟩ := List.cons_subset.mp hL
    rw [windows_cons, List.count_append, count_seg_window hdistinct dwell hg hh, ih hL, List.count_cons, Nat.add_comm]
    simp

theorem count_digit_windows {d : Nat × Pin} (hd : d ∈ assignedSlots s.digitSlots) : ∀ L ⊆ assignedSlots s.segSlots,
    (windows s dwell L).count (.setOut d.2 .high) + (windows s dwell L).count (.setOut d.2 .low) = 2 * L.length := by
  intro L
  induction L with
  | nil => intro _; rfl
  | cons g L ih =>
    intro hL
    obtain ⟨hg, hL⟩ := List.cons_subset.mp hL
    have hwindow := count_digit_window hdistinct dwell hg hd
    have hrest := ih hL
    rw [windows_cons, List.count_append, List.count_append, List.length_cons]
    omega

theorem lineFrom_windows_seg {h : Nat × Pin} (hh : h ∈ assignedSlots s.segSlots) : ∀ L ⊆ assignedSlots s.segSlots,
    ∀ x, lineFrom x (windows s dwell L) h.2 = if h ∈ L then some .low else x := by
  intro L
  induction L with
  | nil => intro _ x; rfl
  | cons g L ih =>
    intro hL x
    obtain ⟨hg, hL⟩ := List.cons_subset.mp hL
    rw [windows_cons, lineFrom_append, lineFrom_window_seg hdistinct dwell hg hh, ih hL]
    by_cases hmem : h ∈ L <;> simp [hmem, eq_comm]

theorem lineFrom_windows_digit {d : Nat × Pin} (hd : d ∈ assignedSlots s.digitSlots) : ∀ L ⊆ assignedSlots s.segSlots,
    ∀ x, lineFrom x (windows s dwell L) d.2 = if L = [] then x else some .high := by
  intro L
  induction L with
  | nil => intro _ x; rfl
  | cons g L ih =>
    intro hL x
    obtain ⟨hg, hL⟩ := List.cons_subset.mp hL
    rw [windows_cons, lineFrom_append, lineFrom_window_digit hdistinct dwell hg hd, ih hL]
    simp

end

end Sys2Proof.Machine
end

section
/-!
What one REFRESH does, read off its trace: the counts (spec R92), the slots that take part (R84), and the line levels at each dwell and at
the end (R93, R94).
-/
namespace Sys2Proof.Machine

/-! The counts (R92). -/

/-- An event that stands equally often in every window. -/
theorem count_windows {s : State} {dwell n : Nat} {e : Event} (h : ∀ i p, (window s dwell i p).count e = n)
    (L : List (Nat × Pin)) : (windows s dwell L).count e = L.length * n := by
  simp [windows, List.count_flatMap, Function.comp_def, h]

theorem length_windows (s : State) (dwell : Nat) (L : List (Nat × Pin)) :
    (windows s dwell L).length = L.length * (2 * assignedCount s.digitSlots + 3) := by
  simp [windows, List.length_flatMap, length_window]

theorem PinsDistinct.count_seg {s : State} (hdistinct : PinsDistinct s) {g : Nat × Pin} (hg : g ∈ assignedSlots s.segSlots) :
    (assignedSlots s.segSlots).count g = 1 :=
  List.count_eq_one_of_mem (List.Nodup.of_map _ hdistinct.seg_pins_nodup) hg

/-- The window of an assigned segment slot stands in the trace, its `HIGH` before its `LOW`. -/
theorem refreshTrace_high_before_low {s : State} {g : Nat × Pin} (hg : g ∈ assignedSlots s.segSlots) (dwell : Nat) :
    ∃ before between after, refreshTrace s dwell =
      before ++ .setOut g.2 .high :: (between ++ .setOut g.2 .low :: after) := by
  obtain ⟨L, R, hsplit⟩ := List.append_of_mem hg
  refine ⟨windows s dwell L, driveEvents s g.1 ++ .wait dwell :: offEvents s, windows s dwell R, ?_⟩
  rw [refreshTrace_eq_windows, hsplit]
  simp [windows, window]

/-- Settles O38: each count is a count per window, added up over the assigned segment slots. -/
theorem refreshEventCounts : Obligations.RefreshEventCounts := by
  intro s dwell
  refine ⟨length_windows s dwell _, ?_, fun hdistinct => ⟨fun g hg => ⟨?_, ?_, ?_⟩, fun d hd => ?_⟩⟩
  · rw [refreshTrace_eq_windows, count_windows (count_wait_window s dwell), Nat.mul_one, assignedCount]
  · exact (count_seg_windows hdistinct dwell hg .high _ (List.Subset.refl _)).trans (hdistinct.count_seg hg)
  · exact (count_seg_windows hdistinct dwell hg .low _ (List.Subset.refl _)).trans (hdistinct.count_seg hg)
  · exact refreshTrace_high_before_low hg dwell
  · exact count_digit_windows hdistinct dwell hd _ (List.Subset.refl _)

/-! The slots that take part (R84). -/

theorem setOut_mem_refreshTrace {s : State} {dwell : Nat} {p : Pin} {l : Level} (h : Event.setOut p l ∈ refreshTrace s dwell) :
    (∃ g ∈ assignedSlots s.segSlots, g.2 = p) ∨ ∃ d ∈ assignedSlots s.digitSlots, d.2 = p := by
  obtain ⟨g, hg, hmem⟩ := List.mem_flatMap.mp h
  exact (setOut_mem_window hmem).imp_left fun heq => ⟨g, hg, heq.symm⟩

theorem assignedSlots_eq_nil {slots : List Slot} (h : ∀ k, isAssigned slots k = false) : assignedSlots slots = [] := by
  rw [List.eq_nil_iff_forall_not_mem]
  intro g hg
  have hassigned := isAssigned_iff_mem.mpr ⟨g.2, hg⟩
  simp [h g.1] at hassigned

theorem refreshTrace_congr {s t : State} (hseg : t.segSlots = s.segSlots) (hdigit : t.digitSlots = s.digitSlots)
    (hbits : ∀ g ∈ assignedSlots s.segSlots, ∀ d ∈ assignedSlots s.digitSlots, readDsBit t d.1 g.1 = readDsBit s d.1 g.1)
    (dwell : Nat) : refreshTrace t dwell = refreshTrace s dwell := by
  rw [refreshTrace, refreshTrace, hseg]
  exact List.flatMap_congr fun g hg => window_congr hdigit (hbits g hg) dwell g.2

theorem readDsBit_writeDs_of_ne {j k : Nat} (h : j ≠ k) (v : Byte) (s : State) (i : Nat) :
    readDsBit (writeDs j v s) k i = readDsBit s k i := by
  rw [readDsBit, readDsBit, writeDs_ds, List.getElem?_set_ne h]

/-- Settles O39. -/
theorem unassignedSlotsContributeNothing : Obligations.UnassignedSlotsContributeNothing := by
  intro s dwell
  refine ⟨fun p l h => ?_, fun hnone => ?_, fun hnone => ?_, fun j v hj => ?_⟩
  · rcases setOut_mem_refreshTrace h with ⟨g, hg, rfl⟩ | ⟨d, hd, rfl⟩
    · exact ⟨g.1, .inl (mem_assignedSlots.mp hg)⟩
    · exact ⟨d.1, .inr (mem_assignedSlots.mp hd)⟩
  · rw [refreshTrace, assignedSlots_eq_nil hnone, List.flatMap_nil]
  · have hwindow (i : Nat) (p : Pin) : window s dwell i p = [.setOut p .high, .wait dwell, .setOut p .low] := by
      rw [window, driveEvents, offEvents, assignedSlots_eq_nil hnone]
      rfl
    simp only [refreshTrace, hwindow]
  · have hne : ∀ d ∈ assignedSlots s.digitSlots, j ≠ d.1 := by
      rintro d hd rfl
      simp [isAssigned_iff_mem.mpr ⟨d.2, hd⟩] at hj
    exact refreshTrace_congr (s := s) (t := writeDs j v s) rfl rfl
      (fun g _ d hd => readDsBit_writeDs_of_ne (hne d hd) v s g.1) dwell

/-! The levels after a REFRESH (R94). -/

/-- Settles O43: the last window of the row has the last word on every digit line, each window on its own segment line. -/
theorem displayDarkAfterRefresh : Obligations.DisplayDarkAfterRefresh := by
  intro s dwell
  have hline (p : Pin) : line (refreshResult dwell s).trace p =
      lineFrom (line s.trace p) (windows s dwell (assignedSlots s.segSlots)) p := line_append ..
  refine ⟨fun hdistinct hsome => ⟨fun g hg => ?_, fun d hd => ?_⟩, fun hnone p => ?_⟩
  · rw [hline, lineFrom_windows_seg hdistinct dwell hg _ (List.Subset.refl _), if_pos hg]
  · rw [hline, lineFrom_windows_digit hdistinct dwell hd _ (List.Subset.refl _), if_neg hsome]
  · rw [hline, hnone]
    rfl

/-! The levels in a dwell (R93). -/

/-- In the ascending order of the assigned slots those before `g` are the ones below it. -/
theorem mem_left_iff_lt {slots : List Slot} {L R : List (Nat × Pin)} {g h : Nat × Pin}
    (hsplit : assignedSlots slots = L ++ g :: R) (hh : h ∈ assignedSlots slots) : h ∈ L ↔ h.1 < g.1 := by
  have hascending : (L ++ g :: R).Pairwise fun a b => a.1 < b.1 := hsplit ▸ assignedFrom_ascending slots 0
  obtain ⟨-, hright, hleft⟩ := List.pairwise_append.mp hascending
  refine ⟨fun hmem => hleft h hmem g List.mem_cons_self, fun hlt => ?_⟩
  rw [hsplit] at hh
  rcases List.mem_append.mp hh with hL | hgR
  · exact hL
  · rcases List.mem_cons.mp hgR with rfl | hR
    · omega
    · have hgt := (List.pairwise_cons.mp hright).1 h hR
      omega

/-- The events of a REFRESH up to the dwell of slot `g`, the windows of `L` being over. -/
def eventsToDwell (s : State) (dwell : Nat) (L : List (Nat × Pin)) (g : Nat × Pin) : List Event :=
  windows s dwell L ++ .setOut g.2 .high :: driveEvents s g.1

/-- A REFRESH reaches the dwell of each assigned segment slot (R88). -/
theorem emits_to_dwell {s : State} (hr : s.resetReq = false) (hb : Readable s) (dwell : Nat) {L R : List (Nat × Pin)}
    {g : Nat × Pin} (hsplit : assignedSlots s.segSlots = L ++ g :: R) :
    Emits (goto (segSeq s 0) (latchDwell dwell s)) (eventsToDwell s dwell L g)
      (goto (.wait g.1) (emitAll (eventsToDwell s dwell L g) (latchDwell dwell s))) := by
  obtain ⟨i, hwindows, hnext⟩ := emits_windows L (g :: R) 0 (goto (segSeq s 0) (latchDwell dwell s)) hsplit hr rfl hb
  rcases nextAssigned_cases s.segSlots i with ⟨_, hnil⟩ | ⟨m, p, _, hm, hslot, hcons⟩
  · exact absurd (hnext.symm.trans hnil) (List.cons_ne_nil _ _)
  · obtain ⟨rfl, -⟩ := List.cons.inj (hnext.symm.trans hcons)
    have hseq : segSeq (goto (segSeq s 0) (latchDwell dwell s)) i = .segOn m := by
      rw [segSeq, goto_segSlots, latchDwell_segSlots, hm]
    rw [hseq, emitAll_goto, goto_goto] at hwindows
    have hemits := emits_append hwindows (emits_open (i := m) (p := p) hr rfl hslot hb)
    simp only [emitAll_goto, emitAll_emitAll, goto_goto] at hemits
    exact hemits

section
variable {s : State} (hdistinct : PinsDistinct s) (dwell : Nat) {L R : List (Nat × Pin)} {g : Nat × Pin}
  (hsplit : assignedSlots s.segSlots = L ++ g :: R)
include hdistinct hsplit

/-- At its dwell slot `g` has its line `HIGH`, the slots before it theirs `LOW`, and those after it theirs untouched. -/
theorem line_seg_at_dwell {h : Nat × Pin} (hh : h ∈ assignedSlots s.segSlots) :
    line (s.trace ++ eventsToDwell s dwell L g) h.2 =
      if g = h then some .high else if h ∈ L then some .low else line s.trace h.2 := by
  have hg : g ∈ assignedSlots s.segSlots := by simp [hsplit]
  have hL : L ⊆ assignedSlots s.segSlots := by simp [hsplit]
  rw [line_append, eventsToDwell, lineFrom_append, lineFrom_open_seg hdistinct hg hh,
    lineFrom_windows_seg hdistinct dwell hh L hL]

omit hsplit in
theorem line_digit_at_dwell {d : Nat × Pin} (hd : d ∈ assignedSlots s.digitSlots) :
    line (s.trace ++ eventsToDwell s dwell L g) d.2 = some (lvl s g.1 d.1) := by
  rw [line_append, eventsToDwell, lineFrom_append, lineFrom_open_digit hdistinct hd]

end

/-- Settles O42: the dwell of slot `g` is reached after the windows below it, and the line view is read off the events up to it. -/
theorem dwellWindowLevels : Obligations.DwellWindowLevels := by
  intro s dwell rest hi hr hq hc hdistinct hwf hcmd g hg
  obtain ⟨L, R, hsplit⟩ := List.append_of_mem hg
  have hstep : step s = .next (goto (segSeq s 0) (latchDwell dwell (withCmd rest s))) :=
    (step_accept hr hq (decode_eq_command.mpr ⟨hwf, hcmd⟩)).trans (exec_refresh (s := withCmd rest s) hc dwell)
  obtain ⟨hrun, -⟩ := emits_to_dwell (s := withCmd rest s) hr (readable_of_inv (hi.withCmd rest)) dwell hsplit
  have hseg {h : Nat × Pin} (hh : h ∈ assignedSlots s.segSlots) := line_seg_at_dwell hdistinct dwell hsplit hh
  refine ⟨_, _, _, (run_succ hstep).trans hrun, rfl, step_of_moves hr (.wait rfl), rfl, ?_, fun d hd => ?_, fun h hh hlt => ?_,
    fun h hh hlt => ?_⟩
  · exact (hseg hg).trans (if_pos rfl)
  · exact (line_digit_at_dwell hdistinct dwell hd).trans (congrArg some (lvl_eq_ite s g.1 d.1))
  · have hne : g ≠ h := by rintro rfl; omega
    exact (hseg hh).trans (by rw [if_neg hne, if_pos ((mem_left_iff_lt hsplit hh).mpr hlt)])
  · have hne : g ≠ h := by rintro rfl; omega
    have hnot : h ∉ L := fun hmem => absurd ((mem_left_iff_lt hsplit hh).mp hmem) (by omega)
    exact (hseg hh).trans (by rw [if_neg hne, if_neg hnot])

end Sys2Proof.Machine
end

section
/-!
The refusals (spec R99): a reset in a running command, a reserved opcode byte, a command on the wrong side of CONFIG. Nothing else a
step does can be refused.
-/
namespace Sys2Proof.Machine

theorem takeReset_eq_refused {s : State} {r : Refusal} :
    takeReset s = .refused r ↔ s.seq ≠ .idle ∧ r = .resetWhileBusy := by
  unfold takeReset
  split
  next hq => simp [hq]
  next hq => exact ⟨fun h => ⟨hq, (Host.Outcome.refused.inj h).symm⟩, fun ⟨_, hr⟩ => hr ▸ rfl⟩

/-- The two preconditions on `constructed` are the only refusals of a command. -/
theorem exec_eq_refused {i : Instr} {s : State} {r : Refusal} : exec i s = .refused r ↔
    (∃ dpins spins, i = .config dpins spins ∧ s.constructed = true ∧ r = .alreadyConstructed) ∨
    ((∀ dpins spins, i ≠ .config dpins spins) ∧ s.constructed = false ∧ r = .notConstructed) := by
  cases ha : accepts i s with
  | true =>
    obtain ⟨t, ht⟩ := exec_accepted ha
    cases i with
    | config =>
      have hc : s.constructed = false := by simpa [accepts] using ha
      simp [ht, hc]
    | setd | setds | refresh =>
      have hc : s.constructed = true := ha
      simp [ht, hc]
  | false =>
    rw [exec_not_accepted ha]
    cases i with
    | config =>
      have hc : s.constructed = true := by simpa [accepts] using ha
      simp [hc, eq_comm (b := r)]
    | setd | setds | refresh =>
      have hc : s.constructed = false := ha
      simp [hc, eq_comm (b := r)]

/-- A running command never meets a refusal (R99): what it reads is there, or the model faults. -/
theorem sequencerStep_running_ne_refused {s : State} (hq : s.seq ≠ .idle) (r : Refusal) :
    sequencerStep exec s ≠ .refused r := by
  intro h
  unfold sequencerStep at h
  split at h
  next hidle => exact hq hidle
  next k pins _ =>
    unfold seqCfg at h
    split at h <;> cases h
  next => exact (withPin_refused h).elim nofun
  next =>
    obtain ⟨p, hp⟩ := withPin_refused h
    split at hp <;> cases hp
  next => cases h
  next => exact (withPin_refused h).elim nofun
  next => exact (withPin_refused h).elim nofun

theorem acceptCommand_eq_refused {s : State} {r : Refusal} : acceptCommand exec s = .refused r ↔
    (∃ b, decode s.cfg s.cmd = .reserved b ∧ r = .reservedOpcode b) ∨
    ∃ i rest, decode s.cfg s.cmd = .command i rest ∧ exec i (withCmd rest s) = .refused r := by
  unfold acceptCommand
  cases decode s.cfg s.cmd with
  | command i rest => simp
  | reserved b => simp [eq_comm]
  | incomplete => simp

theorem step_eq_refused {s : State} {r : Refusal} : step s = .refused r ↔
    (s.resetReq = true ∧ takeReset s = .refused r) ∨
    (s.resetReq = false ∧ s.seq = .idle ∧ acceptCommand exec s = .refused r) := by
  cases hr : s.resetReq with
  | true => simp [step_reset hr]
  | false =>
    rw [step_eq_sequencerStep hr]
    by_cases hq : s.seq = .idle
    · simp [sequencerStep, hq]
    · simp [sequencerStep_running_ne_refused hq, hq]

theorem decode_eq_reserved_iff_toNat {c : Config} {bs : List Byte} {b : Byte} :
    decode c bs = .reserved b ↔ ∃ rest, bs = b :: rest ∧ (b.toNat = 0 ∨ 5 ≤ b.toNat) := by
  rw [decode_eq_reserved, formatOf_eq_none_iff_toNat, exists_and_right, and_comm]

/-- The refusals of the accept step, row by row. -/
theorem acceptCommand_refusals {s : State} {r : Refusal} : acceptCommand exec s = .refused r ↔
    (∃ b rest, s.cmd = b :: rest ∧ (b.toNat = 0 ∨ 5 ≤ b.toNat) ∧ r = .reservedOpcode b) ∨
    (∃ dpins spins rest, decode s.cfg s.cmd = .command (.config dpins spins) rest ∧
      s.constructed = true ∧ r = .alreadyConstructed) ∨
    (∃ i rest, decode s.cfg s.cmd = .command i rest ∧ (∀ dpins spins, i ≠ .config dpins spins) ∧
      s.constructed = false ∧ r = .notConstructed) := by
  rw [acceptCommand_eq_refused]
  simp only [decode_eq_reserved_iff_toNat, exec_eq_refused, withCmd_constructed]
  constructor
  · rintro (⟨b, ⟨rest, hcmd, hb⟩, hr⟩ | ⟨_, rest, hd, ⟨dpins, spins, rfl, hc⟩ | hother⟩)
    · exact .inl ⟨b, rest, hcmd, hb, hr⟩
    · exact .inr (.inl ⟨dpins, spins, rest, hd, hc⟩)
    · exact .inr (.inr ⟨_, rest, hd, hother⟩)
  · rintro (⟨b, rest, hcmd, hb, hr⟩ | ⟨dpins, spins, rest, hd, hc⟩ | ⟨i, rest, hd, hother⟩)
    · exact .inl ⟨b, ⟨rest, hcmd, hb⟩, hr⟩
    · exact .inr ⟨_, rest, hd, .inl ⟨dpins, spins, rfl, hc⟩⟩
    · exact .inr ⟨i, rest, hd, .inr hother⟩

/-- Settles O9: row 4 of R99 is the reset's, the other three are the accept step's. -/
theorem refusalsAreTheListedCases : Obligations.RefusalsAreTheListedCases := by
  intro s r
  rw [step_eq_refused, takeReset_eq_refused, acceptCommand_refusals]

end Sys2Proof.Machine
end

section
/-!
The events (spec R107 to R109): each comes from a move of the sequencer, so its kind tells the `seq` value it was emitted in, and only
a `SetOut` changes the line view (R28).
-/
namespace Sys2Proof.Machine

/-- A step without a reset leaves the trace alone, or is a move of the running command. -/
theorem step_silent_or_moves {s t : State} (hr : s.resetReq = false) (h : step s = .next t) :
    t.trace = s.trace ∨ ∃ e q, Moves s e q ∧ t = goto q (emit e s) := by
  by_cases hq : s.seq = .idle
  · exact .inl ((oneEventPerSequencerStep s t hr h).1 hq)
  · rcases step_cases h with ⟨_, hidle, _⟩ | ⟨_, hidle, _⟩ | ⟨_, hidle, _⟩ | ⟨_, _, hmove⟩
    · exact absurd hidle hq
    · exact absurd hidle hq
    · exact absurd hidle hq
    · exact .inr hmove

/-- An event a step appends is that of its move. -/
theorem exists_moves_of_emitted {s t : State} {e : Event} (hr : s.resetReq = false) (h : step s = .next t)
    (ht : t.trace = s.trace ++ [e]) : ∃ q, Moves s e q := by
  rcases step_silent_or_moves hr h with hsilent | ⟨e', q, hm, rfl⟩
  · simp [hsilent] at ht
  · obtain rfl : e' = e := by simpa using ht
    exact ⟨q, hm⟩

theorem Moves.seq_of_cfgOut {s : State} {p : Pin} {q : Seq} (hm : Moves s (.cfgOut p) q) :
    ∃ k pins, s.seq = .cfg k pins := by
  cases hm with
  | cfg h => exact ⟨_, _, h⟩

theorem Moves.seq_of_setOut {s : State} {p : Pin} {l : Level} {q : Seq} (hm : Moves s (.setOut p l) q) :
    ∃ i j, s.seq = .segOn i ∨ s.seq = .drive i j ∨ s.seq = .off i j ∨ s.seq = .segOff i := by
  cases hm with
  | segOn h => exact ⟨_, 0, .inl h⟩
  | drive h => exact ⟨_, _, .inr (.inl h)⟩
  | off h => exact ⟨_, _, .inr (.inr (.inl h))⟩
  | segOff h => exact ⟨_, 0, .inr (.inr (.inr h))⟩

theorem Moves.seq_of_wait {s : State} {n : Nat} {q : Seq} (hm : Moves s (.wait n) q) :
    n = s.dw ∧ ∃ i, s.seq = .wait i := by
  cases hm with
  | wait h => exact ⟨rfl, _, h⟩

/-- The one event that can change the line `p` is a `SetOut` to it (R12). -/
theorem eq_setOut_of_line_emit_ne {e : Event} {s : State} {p : Pin}
    (h : line (emit e s).trace p ≠ line s.trace p) : ∃ l, e = .setOut p l := by
  cases e with
  | setOut p' l =>
    have hpin : p' = p := by
      by_contra hne
      exact h (line_emit_setOut_of_ne hne l s)
    exact ⟨l, hpin ▸ rfl⟩
  | cfgOut | wait => exact absurd (congrFun (line_emit_of_silent (by simp) s) p) h

theorem emitted_setOut_of_line_ne {s t : State} {p : Pin} (hr : s.resetReq = false) (h : step s = .next t)
    (hline : line t.trace p ≠ line s.trace p) : ∃ l, t.trace = s.trace ++ [.setOut p l] := by
  rcases step_silent_or_moves hr h with hsilent | ⟨e, q, _, rfl⟩
  · exact absurd (by rw [hsilent]) hline
  · obtain ⟨l, rfl⟩ := eq_setOut_of_line_emit_ne hline
    exact ⟨l, rfl⟩

/-- Settles O12, each clause from the move that emits its event. -/
theorem eachEventHasItsSequencerState : Obligations.EachEventHasItsSequencerState := by
  intro s t hr h
  refine ⟨fun p ht => ?_, fun p l ht => ?_, fun n ht => ?_, fun p hline => ?_⟩
  · obtain ⟨q, hm⟩ := exists_moves_of_emitted hr h ht
    exact hm.seq_of_cfgOut
  · obtain ⟨q, hm⟩ := exists_moves_of_emitted hr h ht
    exact hm.seq_of_setOut
  · obtain ⟨q, hm⟩ := exists_moves_of_emitted hr h ht
    exact hm.seq_of_wait
  · obtain ⟨l, ht⟩ := emitted_setOut_of_line_ne hr h hline
    cases l with
    | low => exact .inr ht
    | high => exact .inl ht

end Sys2Proof.Machine
end

section
/-!
Driven pins were configured (spec R108): a CONFIG stores only pins of its event list (R72, R73), a stored pin keeps its `CfgOut`, had or
pending, in every later step, and when a REFRESH drives a stored pin no CONFIG runs any more, so it has been had.
-/
namespace Sys2Proof.Machine

/-- Pin `p` has had its `CfgOut`, or the running CONFIG has still to emit it (R73). -/
def ConfiguredOrPending (s : State) (p : Pin) : Prop := Event.cfgOut p ∈ s.trace ∨ pendingConfig s p

/-- The pins of the assigned slots. -/
def StoredPin (s : State) (p : Pin) : Prop := ∃ k, (k, p) ∈ assignedSlots s.segSlots ++ assignedSlots s.digitSlots

/-- Every driven pin has had its `CfgOut`. -/
def DrivenHadConfig (T : List Event) : Prop := ∀ p l, Event.setOut p l ∈ T → Event.cfgOut p ∈ T

theorem drivenConfigured_iff {s : State} :
    DrivenConfigured s ↔ (∀ p, StoredPin s p → ConfiguredOrPending s p) ∧ DrivenHadConfig s.trace :=
  and_congr_left fun _ => ⟨fun h p ⟨k, hk⟩ => h (k, p) hk, fun h g hg => h g.2 ⟨g.1, hg⟩⟩

theorem pendingConfig_iff {s : State} {p : Pin} :
    pendingConfig s p ↔ ∃ k pins, s.seq = .cfg k pins ∧ p ∈ pins.drop k := by
  unfold pendingConfig
  cases s.seq <;> simp

/-- With `k` events of E out, the pins from `E[k]` on are pending; when all are out the drop is empty (R73). -/
theorem pendingConfig_configSeq {k : Nat} {pins : List Pin} {s : State} {p : Pin} :
    pendingConfig (goto (configSeq k pins) s) p ↔ p ∈ pins.drop k := by
  unfold configSeq
  split
  next => exact Iff.rfl
  next hk => simp [pendingConfig, List.drop_eq_nil_of_le (not_lt.mp hk)]

/-! The move of a running command. -/

theorem Moves.of_cfg {s : State} {e : Event} {q : Seq} {k : Nat} {pins : List Pin} (hm : Moves s e q)
    (hq : s.seq = .cfg k pins) : ∃ p, pins[k]? = some p ∧ e = .cfgOut p ∧ q = configSeq (k + 1) pins := by
  cases hm with
  | cfg h hp => cases hq.symm.trans h; exact ⟨_, hp, rfl, rfl⟩
  | segOn h | drive h | wait h | off h | segOff h => cases hq.symm.trans h

/-- The move of `CFG(k)` emits the first pending pin and leaves the others pending; no other move touches a pending pin. -/
theorem ConfiguredOrPending.move {s : State} {p : Pin} {e : Event} {q : Seq} (h : ConfiguredOrPending s p)
    (hm : Moves s e q) : ConfiguredOrPending (goto q (emit e s)) p := by
  rcases h with hhad | hpending
  · exact .inl (List.mem_append_left [e] hhad)
  · obtain ⟨k, pins, hq, hmem⟩ := pendingConfig_iff.mp hpending
    obtain ⟨p', hp', rfl, rfl⟩ := hm.of_cfg hq
    obtain ⟨hk, rfl⟩ := List.getElem?_eq_some_iff.mp hp'
    rw [List.drop_eq_getElem_cons hk] at hmem
    rcases List.mem_cons.mp hmem with rfl | hlater
    · exact .inl (List.mem_append_right s.trace (List.mem_singleton_self _))
    · exact .inr (pendingConfig_configSeq.mpr hlater)

/-- A `SetOut` goes to a stored pin (R86 to R90). -/
theorem Moves.storedPin_of_setOut {s : State} {p : Pin} {l : Level} {q : Seq} (hm : Moves s (.setOut p l) q) :
    StoredPin s p := by
  cases hm with
  | segOn _ hp | segOff _ hp => exact ⟨_, List.mem_append_left _ (mem_assignedSlots.mpr hp)⟩
  | drive _ hp | off _ hp => exact ⟨_, List.mem_append_right _ (mem_assignedSlots.mpr hp)⟩

/-- No CONFIG runs while a line is driven. -/
theorem Moves.not_pendingConfig_of_setOut {s : State} {p : Pin} {l : Level} {q : Seq} (hm : Moves s (.setOut p l) q) :
    ¬ pendingConfig s p := by
  rw [pendingConfig_iff]
  rintro ⟨k, pins, hq, -⟩
  obtain ⟨_, _, he, _⟩ := hm.of_cfg hq
  cases he

theorem DrivenConfigured.move {s : State} {e : Event} {q : Seq} (h : DrivenConfigured s) (hm : Moves s e q) :
    DrivenConfigured (goto q (emit e s)) := by
  rw [drivenConfigured_iff] at h ⊢
  obtain ⟨hstored, hdriven⟩ := h
  refine ⟨fun p hp => (hstored p hp).move hm, fun p l hmem => List.mem_append_left [e] ?_⟩
  rcases List.mem_append.mp hmem with hbefore | hnow
  · exact hdriven p l hbefore
  · obtain rfl : Event.setOut p l = e := List.mem_singleton.mp hnow
    exact (hstored p hm.storedPin_of_setOut).resolve_right hm.not_pendingConfig_of_setOut

/-! The accept step. -/

/-- Every stored pin of either group is on the event list E (R72, R73). -/
theorem mem_configPins_of_stored {c : Config} {dpins spins : List Pin} {p : Pin}
    (h : p ∈ spins.take (segCount spins) ∨ p ∈ dpins.take (digitCount c dpins)) : p ∈ configPins c dpins spins := by
  have hgroups : p ∈ groupPins c (segCount spins) spins ∨ p ∈ groupPins c (digitCount c dpins) dpins :=
    h.imp (List.mem_append_left _) (List.mem_append_left _)
  cases hg : c.groupOrder with
  | digitsFirst => rw [configPins_digitsFirst hg]; exact List.mem_append.mpr hgroups.symm
  | segmentsFirst => rw [configPins_segmentsFirst hg]; exact List.mem_append.mpr hgroups

/-- CONFIG stores pins of E, all of them still pending at its accept step. -/
theorem DrivenConfigured.config {s : State} (h : DrivenConfigured s) (dpins spins : List Pin) :
    DrivenConfigured (goto (configSeq 0 (configPins s.cfg dpins spins)) (construct dpins spins s)) := by
  rw [drivenConfigured_iff] at h ⊢
  refine ⟨fun p ⟨k, hk⟩ => .inr (pendingConfig_configSeq.mpr (mem_configPins_of_stored ?_)), h.2⟩
  rcases List.mem_append.mp hk with hseg | hdigit
  · exact .inl (List.mem_of_getElem? (mem_assignedSlots_fillSlots hseg))
  · exact .inr (List.mem_of_getElem? (mem_assignedSlots_fillSlots hdigit))

/-- In `IDLE` nothing is pending, so only the slots and the trace matter. -/
theorem DrivenConfigured.of_idle {s t : State} (h : DrivenConfigured s) (hq : s.seq = .idle)
    (hseg : t.segSlots = s.segSlots) (hdigit : t.digitSlots = s.digitSlots) (htrace : t.trace = s.trace) :
    DrivenConfigured t := by
  obtain ⟨hstored, hdriven⟩ := h
  have hnone (p : Pin) : ¬ pendingConfig s p := by simp [pendingConfig_iff, hq]
  constructor
  · rw [hseg, hdigit, htrace]
    exact fun g hg => .inl ((hstored g hg).resolve_right (hnone g.2))
  · rw [htrace]
    exact hdriven

theorem DrivenConfigured.exec {s t : State} {i : Instr} (h : DrivenConfigured s) (hq : s.seq = .idle)
    (hexec : exec i s = .next t) : DrivenConfigured t := by
  rcases exec_next_setter hexec with ⟨dpins, spins, _, _, rfl⟩ | ⟨hsetter, _, rfl⟩ | ⟨dwell, _, _, rfl⟩
  · exact h.config dpins spins
  · rw [commandResult_setter_frame hsetter]
    exact h.of_idle hq rfl rfl rfl
  · exact h.of_idle hq rfl rfl rfl

/-- Settles O21. -/
theorem drivenPinsWereConfigured : Obligations.DrivenPinsWereConfigured := by
  intro s t h hs
  rcases step_cases hs with ⟨_, _, rfl⟩ | ⟨_, hq, i, rest, _, hexec⟩ | ⟨_, _, _, rfl⟩ | ⟨_, _, e, q, hm, rfl⟩
  · exact drivenConfigured_resetWith s.cfg
  · exact DrivenConfigured.exec (s := withCmd rest s) h hq hexec
  · exact h
  · exact h.move hm

end Sys2Proof.Machine
end

section
/-!
A stream of commands as one run (spec R37, R123): each command after CONFIG runs to its one-step form and leaves the block in
`IDLE` on the rest of the stream, so a stream of complete commands runs to the end; that each event completes is R106 (log entry 14).
-/
namespace Sys2Proof.Machine

/-- The structural invariant along a run of any length. -/
theorem Inv.run {n : Nat} {s t : State} (hi : Inv s) (h : run n s = .next t) : Inv t := by
  induction n generalizing s with
  | zero => cases h; exact hi
  | succ n ih =>
    cases hs : Machine.step s with
    | next u => rw [run_succ hs] at h; exact ih (hi.step hs) h
    | fault f => simp [Machine.run, hs] at h
    | refused r => simp [Machine.run, hs] at h

/-- Once constructed, the block accepts every command but CONFIG (R99). -/
theorem accepts_of_constructed {i : Instr} (hi : ∀ dpins spins, i ≠ .config dpins spins) {s : State}
    (hc : s.constructed = true) : accepts i s = true := by
  cases i with
  | config dpins spins => exact absurd rfl (hi dpins spins)
  | setd | setds | refresh => exact hc

theorem commandResult_resetReq (i : Instr) (s : State) : (commandResult i s).resetReq = s.resetReq := by
  cases i with
  | config | refresh => rfl
  | setd position symbol => rw [commandResult, setDigit_frame]
  | setds symbols => rw [commandResult, setDigitsFrom_frame]

theorem commandsResult_seq (cmds : List Instr) {s : State} (hq : s.seq = .idle) : (commandsResult cmds s).seq = .idle := by
  induction cmds generalizing s with
  | nil => exact hq
  | cons i is ih => exact ih (commandResult_seq i hq)

/-- No list of commands reads the bytes after it. -/
theorem commandsResult_withCmd (cmds : List Instr) (rest : List Byte) (s : State) :
    commandsResult cmds (withCmd rest s) = withCmd rest (commandsResult cmds s) := by
  induction cmds generalizing s with
  | nil => rfl
  | cons i is ih => rw [commandsResult_cons, commandResult_withCmd, ih, commandsResult_cons]

/-- The run of a stream, one command's run after the other. After each command the block is in `IDLE`, still constructed and
under the invariant, with the rest of the stream on its port, where the next command is decoded. -/
theorem exists_run_commandsResult {cmds : List Instr} {s : State} (hi : Inv s) (hr : s.resetReq = false) (hq : s.seq = .idle)
    (hc : s.constructed = true) (hcmds : ∀ i ∈ cmds, i.wf s.cfg = true ∧ ∀ dpins spins, i ≠ .config dpins spins)
    (hcmd : s.cmd = cmds.flatMap (encode s.cfg)) : ∃ n, run n s = .next (withCmd [] (commandsResult cmds s)) := by
  induction cmds generalizing s with
  | nil =>
    have hempty : withCmd [] s = s := congrArg (withCmd · s) hcmd.symm
    exact ⟨0, congrArg Host.Outcome.next hempty.symm⟩
  | cons i is ih =>
    obtain ⟨⟨hwf, hnc⟩, hrest⟩ := List.forall_mem_cons.mp hcmds
    set rest := is.flatMap (encode s.cfg)
    have hdecode : decode s.cfg s.cmd = .command i rest :=
      decode_eq_command.mpr ⟨hwf, hcmd.trans List.flatMap_cons⟩
    obtain ⟨hrun, hidle, -⟩ := everyAcceptedCommandRunsToIdle s i rest hi hr hq hdecode (accepts_of_constructed hnc hc)
    obtain ⟨hcfg, hconstructed, -⟩ := commandResult_frame hnc s
    obtain ⟨n, hlater⟩ := ih (s := withCmd rest (commandResult i s)) (hi.run hrun) ((commandResult_resetReq i s).trans hr) hidle
      (hconstructed.trans hc) (by rwa [withCmd_cfg, hcfg]) (by rw [withCmd_cmd, withCmd_cfg, hcfg])
    rw [commandsResult_withCmd] at hlater
    exact ⟨_, (run_add hrun).trans hlater⟩

/-- Settles O49. -/
theorem commandStreamRunsToItsEnd : Obligations.CommandStreamRunsToItsEnd := by
  intro s cmds hi hr hq hc hcmds hcmd
  obtain ⟨n, hrun⟩ := exists_run_commandsResult hi hr hq hc hcmds hcmd
  exact ⟨n, _, hrun, ⟨commandsResult_seq cmds hq, rfl⟩, rfl⟩

end Sys2Proof.Machine
end

section
/-!
The hazards of the Display State (spec R118, R120) and the reset (R111, R124): what a scan reads of `DS`, the decimal point that no
ROM entry lights, and the block as a reset leaves it.
-/
namespace Sys2Proof.Machine

/-- Settles O40: each window reads the bits of its own segment slot in the assigned digits. -/
theorem traceReadsOnlyAssignedBits : Obligations.TraceReadsOnlyAssignedBits :=
  fun s d dwell hbits => refreshTrace_congr (s := s) (t := { s with ds := d }) rfl rfl hbits dwell

/-- A bit that is 0 in every pattern drives each digit line `HIGH` in its window (R83). -/
theorem lvl_of_bit_clear {s : State} {i : Nat} (hclear : ∀ b ∈ s.ds, b.getLsbD i = false) (j : Nat) : lvl s i j = .high := by
  rw [lvl_eq_ite]
  refine if_neg fun hset => ?_
  obtain ⟨-, b, hb, hbit⟩ := readDsBit_eq_some.mp hset
  rw [hclear b (List.mem_of_getElem? hb)] at hbit
  cases hbit

/-- Settles O41: bit 7 is 0 in every ROM entry (R68), so window 7 drives no line `LOW`. -/
theorem decimalPointNeverLit : Obligations.DecimalPointNeverLit := by
  intro s hrom hc e he
  obtain ⟨d, -, rfl⟩ := List.mem_map.mp he
  exact ⟨d.2, by rw [lvl_of_bit_clear (hrom.bit7 hc)]⟩

theorem isAssigned_eq_false_of_assignedSlots_nil {slots : List Slot} (h : assignedSlots slots = []) (k : Nat) :
    isAssigned slots k = false := by
  rw [← Bool.not_eq_true, isAssigned_iff_mem, h]
  exact nofun

/-- In `IDLE` the reset input is taken (R111). -/
theorem takeReset_idle {s : State} (hq : s.seq = .idle) :
    takeReset s = .next (withCmd s.cmd (State.resetWith s.cfg)) := by
  rw [takeReset, hq]

/-- Settles O50. -/
theorem resetLeavesNoInstance : Obligations.ResetLeavesNoInstance := by
  intro s hr
  rw [step_reset hr]
  refine ⟨fun hq => ?_, fun hq => takeReset_eq_refused.mpr ⟨hq, rfl⟩⟩
  obtain ⟨hseg, hdigit⟩ := assignedSlots_resetWith s.cfg
  exact ⟨_, takeReset_idle hq, rfl, rfl,
    fun k => ⟨isAssigned_eq_false_of_assignedSlots_nil hdigit k, isAssigned_eq_false_of_assignedSlots_nil hseg k⟩,
    rfl, rfl, rfl, rfl⟩

end Sys2Proof.Machine
end

section
/-!
The worked encodings (spec 30_encoding.md and 95_test_vectors.md B5), read from the encoder's side: each complete list is the
encoding of its command.
-/
namespace Sys2Proof.Machine

/-- Settles O5: five encodings, a byte that is no opcode (B5.9), and REFRESH 0 cut before its last dwell byte (B5.13). -/
theorem workedEncodingsDecode : Obligations.WorkedEncodingsDecode := by
  refine ⟨?config, ?setd, ?setds, ?refresh, ?refresh16, ?reserved, ?incomplete⟩
  case config | setd | setds | refresh | refresh16 => exact decode_eq_command.mpr ⟨by decide, rfl⟩
  case reserved => exact decode_eq_reserved.mpr ⟨rfl, _, rfl⟩
  case incomplete => exact decode_take_encode (c := defaultConfig) (i := .refresh 0) (n := 4) (by decide) (by decide)

end Sys2Proof.Machine
end
